-- ==== Sys2Proof/Word.lean ====
section
/-! DEFINITION. The word types (R11): `bitsN` is a vector of N bits, bit 0 least significant. -/

namespace Sys2Proof

/-- One byte of the host's memory. -/
abbrev Byte := BitVec 8

/-- A 32-bit lane, a binary32 pattern, a length or a trial count (R10, R12, R15). -/
abbrev Bits32 := BitVec 32

/-- One word of one stream, and the seed (R12, R21). -/
abbrev Bits64 := BitVec 64

/-- A state register, an entropy value, a beat or a descriptor (R10, R20). -/
abbrev Bits128 := BitVec 128

end Sys2Proof
end

