-- ==== Sys2Proof/Syntax.lean ====
section
/-! DEFINITION. The eight commands of XSRC-1, one constructor per row of spec/opcode_table.json (R63), with their
operands at the widths of R61 and R62. The buffer of a fill is no operand (R42, R66). -/

namespace Sys2Proof

/-- The commands `INIT.f`, `ADV.f`, `FILLU.f`, `FILLB.f` for f in {RSX, SXA}; operands in the order of R66. -/
inductive Instr where
  | initRsx (seed : Bits64)
  | initSxa (seed : Bits64)
  | advRsx
  | advSxa
  | filluRsx (len : Bits32)
  | filluSxa (len : Bits32)
  | fillbRsx (trials prob len : Bits32)
  | fillbSxa (trials prob len : Bits32)
deriving DecidableEq, Repr

end Sys2Proof
end

