-- ==== Sys2Proof/Decode.lean ====
section
/-! DEFINITION. Format D (R60, R61): the decoder, total on 128-bit descriptors and rejecting by name (R64), and after it
the encoder. Operand values are not checked here (R65). -/

namespace Sys2Proof

/-- Why a descriptor matches no row of R63 (R64, R142). All four are the one cause `ILLEGAL_CMD`. -/
inductive DecodeError where
  /-- `rsv`, bits 31:5, is not 0. -/
  | reservedBitsSet
  /-- `op` is 0 or 5 .. 15. -/
  | noSuchOp
  /-- `len` is not 0 in `INIT` or `ADV`. -/
  | lenMustBeZero
  /-- `arg` is not 0 in `ADV` or `FILLU`. -/
  | argMustBeZero
deriving DecidableEq, Repr

/-! The fields of R61. -/

def fieldOp (d : Bits128) : BitVec 4 := d.extractLsb' 0 4
def fieldF (d : Bits128) : BitVec 1 := d.extractLsb' 4 1
def fieldRsv (d : Bits128) : BitVec 27 := d.extractLsb' 5 27
def fieldLen (d : Bits128) : Bits32 := d.extractLsb' 32 32
def fieldArg (d : Bits128) : Bits64 := d.extractLsb' 64 64
def fieldTrials (d : Bits128) : Bits32 := d.extractLsb' 64 32
def fieldProb (d : Bits128) : Bits32 := d.extractLsb' 96 32

/-- R17: the family bit chooses between the RSX form and the SXA form of a command. -/
def byFamilyBit (d : Bits128) (rsxForm sxaForm : Instr) : Instr :=
  if fieldF d = 0#1 then rsxForm else sxaForm

/-- R63, R64: decoding is total; a descriptor that matches no row is rejected. -/
def decode (d : Bits128) : Except DecodeError Instr :=
  if fieldRsv d ≠ 0#27 then .error .reservedBitsSet
  else if fieldOp d = 1#4 then
    if fieldLen d ≠ 0#32 then .error .lenMustBeZero
    else .ok (byFamilyBit d (.initRsx (fieldArg d)) (.initSxa (fieldArg d)))
  else if fieldOp d = 2#4 then
    if fieldLen d ≠ 0#32 then .error .lenMustBeZero
    else if fieldArg d ≠ 0#64 then .error .argMustBeZero
    else .ok (byFamilyBit d .advRsx .advSxa)
  else if fieldOp d = 3#4 then
    if fieldArg d ≠ 0#64 then .error .argMustBeZero
    else .ok (byFamilyBit d (.filluRsx (fieldLen d)) (.filluSxa (fieldLen d)))
  else if fieldOp d = 4#4 then
    .ok (byFamilyBit d (.fillbRsx (fieldTrials d) (fieldProb d) (fieldLen d))
      (.fillbSxa (fieldTrials d) (fieldProb d) (fieldLen d)))
  else .error .noSuchOp

/-- R61: a descriptor put together from its fields, `rsv` = 0. -/
def packDescriptor (op : BitVec 4) (f : BitVec 1) (len : Bits32) (arg : Bits64) : Bits128 :=
  arg ++ len ++ 0#27 ++ f ++ op

/-- R61: `trials` = `arg[31:0]`, `prob` = `arg[63:32]`. -/
def packBinomialArg (trials prob : Bits32) : Bits64 := prob ++ trials

/-- The descriptor of a command, from the fields of R61 and the operation codes of R63. -/
def encode : Instr → Bits128
  | .initRsx seed => packDescriptor 1#4 0#1 0#32 seed
  | .initSxa seed => packDescriptor 1#4 1#1 0#32 seed
  | .advRsx => packDescriptor 2#4 0#1 0#32 0#64
  | .advSxa => packDescriptor 2#4 1#1 0#32 0#64
  | .filluRsx len => packDescriptor 3#4 0#1 len 0#64
  | .filluSxa len => packDescriptor 3#4 1#1 len 0#64
  | .fillbRsx trials prob len => packDescriptor 4#4 0#1 len (packBinomialArg trials prob)
  | .fillbSxa trials prob len => packDescriptor 4#4 1#1 len (packBinomialArg trials prob)

/-- The descriptor whose low `nbits` bits are those of `w` and whose other bits are 0. -/
def tableDescriptor (nbits w : Nat) : Bits128 := BitVec.ofNat 128 (w % 2 ^ nbits)

/-- The command the decoder reads from a table word: the block takes a descriptor whole (R60), so no byte order enters. -/
def decodeTableWord (nbits w : Nat) : Option Instr := (decode (tableDescriptor nbits w)).toOption

end Sys2Proof
end

