-- ==== Sys2Proof/Config.lean ====
section
/-! DEFINITION. What an implementation fixes: the two recurrence families (R17) and the record `Cfg` of
constants the source does not give (R9). The values the machine runs with stand in Machine/Reference.lean. -/

namespace Sys2Proof

/-- The two recurrence families, both always present (R2, R17). -/
inductive Family where
  | rsx   -- rotate-shift-xor, f = 0
  | sxa   -- shift-xor-add, f = 1
deriving DecidableEq, Repr

/-- The configuration record of R9. Every unit operation takes it as an argument; it is no part of the state (R18.2). -/
structure Cfg where
  /-- `MIX`, the scalar seed mixer: any total function (R80). -/
  mix : Bits64 → Bits64
  rsxA : Nat
  rsxB : Nat
  rsxC : Nat
  sxaA : Nat
  sxaB : Nat
  sxaC : Nat
  /-- `JUMP_RSX`: bit i is the coefficient of the i-th power of the transition operator (R89). -/
  jumpRsx : Bits128
  jumpSxa : Bits128
  /-- `CVT_SH`, the right shift of the converter (R111). -/
  cvtSh : Nat
  /-- `TRIALS_MAX`, the largest trial count a model admits (R131, U6). -/
  trialsMax : Nat

end Sys2Proof
end

