-- ==== Sys2Proof/Machine/State.lean ====
section
/-! DEFINITION. The state of one block (R34) with its output ports (R30), the host's memory that holds the bound buffers
(R40, R42) and what the host does next (R27). Plain data. -/

namespace Sys2Proof.Machine

/-- The two 128-bit state registers, "the sole persistent entity" (R20). Stream A lives in word 0 of both, stream B in
word 1 (R21). -/
structure Regs where
  s0 : Bits128
  s1 : Bits128
deriving DecidableEq, Repr

/-- The state of one stream: `x0` is the word held in `s0`, `x1` the word held in `s1` (R85). -/
structure Scalar where
  x0 : Bits64
  x1 : Bits64
deriving DecidableEq, Repr

/-- A generator state: the registers and the family that initialized them (R23). -/
structure GenState where
  family : Family
  regs : Regs
deriving DecidableEq, Repr

/-- The values of `STATUS.CAUSE` (R141); codes 6 to 15 are never written. -/
inductive Cause where
  | noFault
  | illegalCmd
  | familyMismatch
  | badLength
  | badTrials
  | badProb
deriving DecidableEq, Repr

/-- The buffer the host binds to a command (R42, R43): the host address of byte 0 of position 0, and the number of
elements it holds. DESIGN CHOICE (log entries 7 and 8): the address is the host's business and is invisible to the
block. -/
structure Buffer where
  base : Nat
  cap : Nat
deriving DecidableEq, Repr

/-- One beat on the output port (R30, R44). -/
structure Beat where
  index : BitVec 30
  data : Bits128
deriving DecidableEq, Repr

/-- What the host does to the block (R30, R42, R165; log entries 2 and 13). -/
inductive HostInput where
  /-- Presents descriptor `d` on the command port, with buffer `b` bound to it. -/
  | command (d : Bits128) (b : Buffer)
  /-- Asserts `rst` while no command runs. -/
  | reset
  /-- Presents `d` and asserts `rst` while it runs: `beats` whole beats had been written, and of the next one the
  elements whose bit of `landed` is 1. -/
  | commandCut (d : Bits128) (b : Buffer) (beats : Nat) (landed : BitVec 4)
deriving DecidableEq, Repr

/-- Why a step ends in a stuck state. -/
inductive Fault where
  /-- Raised by `step` when the block is halted and the host does not assert `rst`: "the block has no step" (R148).
  Safe: nothing is claimed of what follows. -/
  | halted
deriving DecidableEq, Repr

/-- Why a command has no meaning. -/
inductive Refusal where
  /-- Raised by a refused arm of `exec` only: an instruction without a meaning yet. Safe. -/
  | notModelled (mnemonic : String)
  /-- Raised by the fill commands when the bound buffer holds fewer than `len` elements, of which the spec "says
  nothing" (R43, U5; log entry 8). Safe. -/
  | shortBuffer
  /-- Raised by `FILLB.f` when N > `cfg.TRIALS_MAX` (R131, U6; log entry 6). It cannot happen under the configuration
  the machine runs. Safe. -/
  | trialsAboveMax
deriving DecidableEq, Repr

/-- The machine. `gen`, `halt`, `cause`, `fcmd` are the tuple of R34: `s0`, `s1` and `FAM` are held together, since
`s0` and `s1` are absent exactly when `FAM` = 0. -/
structure State where
  /-- `s0`, `s1` and `FAM`; absent until the first `INIT` after reset (R23, R33, R34; log entry 3). -/
  gen : Option GenState
  /-- `STATUS.HALT` (R28). -/
  halt : Bool
  /-- `STATUS.CAUSE` (R28). -/
  cause : Cause
  /-- `FCMD`, the faulting descriptor (R29). -/
  fcmd : Bits128
  /-- The result port: `res_data` when `res_valid` = 1 (R30). -/
  result : Option Bits128
  /-- The output port: the beats of the last command, in order (R30, R49). -/
  burst : List Beat
  /-- The `done` pulse of the last command (R30). -/
  done : Bool
  /-- The host's memory, bytes at strictly rising addresses (R40, R45; log entry 7). -/
  mem : List Host.Cell
  /-- The buffer bound to the current command (R42). -/
  buf : Buffer
  /-- What the host does next, in order (R27; log entry 2). -/
  inputs : List HostInput
  /-- The host's count of commands completed without fault (R27; log entry 12). -/
  cpc : Nat
deriving DecidableEq, Repr

/-- The state after reset (R33): no generator state (`FAM` = 0), `STATUS` = 0, `FCMD` = 0, nothing on the ports. The
memory lists nothing, nothing is bound and the host does nothing yet (log entries 7, 9, 16). -/
def State.reset : State where
  gen := none
  halt := false
  cause := .noFault
  fcmd := 0
  result := none
  burst := []
  done := false
  mem := []
  buf := ⟨0, 0⟩
  inputs := []
  cpc := 0

end Sys2Proof.Machine
end

