-- ==== Sys2Proof/Machine/Operands.lean ====
section
/-! DEFINITION. Words, lanes and lane-wise forms (R12 to R14), the streams of a state (R21), and the checks a command
makes on its operands (R62, R126, R144, R145). -/

namespace Sys2Proof.Machine

/-- `w0(v) = v[63:0]` (R12). -/
def w0 (v : Bits128) : Bits64 := v.extractLsb' 0 64

/-- `w1(v) = v[127:64]` (R12). -/
def w1 (v : Bits128) : Bits64 := v.extractLsb' 64 64

/-- `{hi, lo}` of two words (R11). -/
def joinWords (hi lo : Bits64) : Bits128 := hi ++ lo

/-- `l_k(v) = v[32k+31:32k]` (R12). -/
def lane (k : Nat) (v : Bits128) : Bits32 := v.extractLsb' (32 * k) 32

/-- `{l3, l2, l1, l0}` of four 32-bit lanes (R11). -/
def joinLanes (l3 l2 l1 l0 : Bits32) : Bits128 := l3 ++ l2 ++ l1 ++ l0

/-- `rotl64(x, k) = (x << k) | (x >> (64 - k))` (R13). -/
def rotl64 (x : Bits64) (k : Nat) : Bits64 := (x <<< k) ||| (x >>> (64 - k))

/-- `op.2x64` (R14): no carry or bit moves between the words. -/
def lanewise64 (op : Bits64 → Bits64 → Bits64) (u v : Bits128) : Bits128 :=
  joinWords (op (w1 u) (w1 v)) (op (w0 u) (w0 v))

/-- A unary `op.4x32` (R14). -/
def mapLanes (op : Bits32 → Bits32) (v : Bits128) : Bits128 :=
  joinLanes (op (lane 3 v)) (op (lane 2 v)) (op (lane 1 v)) (op (lane 0 v))

/-- A binary `op.4x32` (R14). -/
def lanewise32 (op : Bits32 → Bits32 → Bits32) (u v : Bits128) : Bits128 :=
  joinLanes (op (lane 3 u) (lane 3 v)) (op (lane 2 u) (lane 2 v)) (op (lane 1 u) (lane 1 v))
    (op (lane 0 u) (lane 0 v))

/-- Stream A: word 0 of both registers (R21). -/
def streamA (r : Regs) : Scalar := ⟨w0 r.s0, w0 r.s1⟩

/-- Stream B: word 1 of both registers (R21). -/
def streamB (r : Regs) : Scalar := ⟨w1 r.s0, w1 r.s1⟩

/-- `s0 = {b0, a0}`, `s1 = {b1, a1}` (R21, R92). -/
def packStreams (a b : Scalar) : Regs := ⟨joinWords b.x0 a.x0, joinWords b.x1 a.x1⟩

/-- Not `BAD_LENGTH`: `len` is a positive multiple of 4 (R144). -/
def lenOk (len : Bits32) : Bool := len.toNat ≠ 0 && len.toNat % 4 = 0

/-- Not `BAD_TRIALS`: bit 31 is 0, so N ≥ 0 (R126, R145). -/
def trialsOk (trials : Bits32) : Bool := !trials.msb

/-- The pattern of -0.0, the one negative pattern in contract (R126). -/
def negZero : Bits32 := 0x80000000#32

/-- Not `BAD_PROB`: 0 ≤ p ≤ 1 on patterns (R126). -/
def probOk (b : Bits32) : Bool := b == negZero || (!b.msb && b ≤ 0x3F800000#32)

/-- The number of groups of a fill, `len/4` (R44). -/
def groupCount (len : Bits32) : Nat := len.toNat / 4

end Sys2Proof.Machine
end

