-- ==== Sys2Proof/Machine/Flags.lean ====
section
/-! DEFINITION. The status side of the block: the family tag (R23), the cause codes (R141), the STATUS word (R28) and
`cmd_ready` (R30). There are no arithmetic flags (R28). -/

namespace Sys2Proof.Machine

/-- `FAM` of a state made by family f is `1 + f` (R23). -/
def famCode : Family → BitVec 2
  | .rsx => 1#2
  | .sxa => 2#2

/-- `FAM`, 0 when no `INIT` was made since reset (R23). -/
def State.fam (s : State) : BitVec 2 :=
  match s.gen with
  | none => 0#2
  | some g => famCode g.family

/-- `s0`, absent exactly when `FAM` = 0 (R34). -/
def State.s0 (s : State) : Option Bits128 := s.gen.map (·.regs.s0)

/-- `s1`, absent exactly when `FAM` = 0 (R34). -/
def State.s1 (s : State) : Option Bits128 := s.gen.map (·.regs.s1)

/-- The code of a cause (R141). -/
def Cause.code : Cause → BitVec 4
  | .noFault => 0#4
  | .illegalCmd => 1#4
  | .familyMismatch => 2#4
  | .badLength => 3#4
  | .badTrials => 4#4
  | .badProb => 5#4

/-- `STATUS.BUSY`: "always 0 between commands, so always 0 in the atomic model" (R28; log entry 1). -/
def State.busy (_ : State) : Bool := false

/-- `STATUS` (R28): bit 0 BUSY, bit 1 HALT, bits 3:2 FAM, bits 7:4 CAUSE, bits 31:8 zero. -/
def State.status (s : State) : Bits32 :=
  0#24 ++ s.cause.code ++ s.fam ++ BitVec.ofBool s.halt ++ BitVec.ofBool s.busy

/-- `cmd_ready` = 1 exactly when BUSY = 0 and HALT = 0 (R30). -/
def State.cmdReady (s : State) : Bool := !s.busy && !s.halt

end Sys2Proof.Machine
end

