-- ==== Sys2Proof/Machine/Float.lean ====
section
/-! DEFINITION. binary32 as exact functions on bit patterns (R15): the converters CVT12 and CVT01 (R110 to R113), the
threshold of a probability (R127), the strict less-than (R129) and the count conversion (R131). -/

namespace Sys2Proof.Machine

/-! The fields of a binary32 pattern and its value (R15). -/

def f32Exponent (b : Bits32) : Nat := (b.extractLsb' 23 8).toNat
def f32Fraction (b : Bits32) : Nat := (b.extractLsb' 0 23).toNat

/-- Neither an infinity nor a NaN. -/
def f32Finite (b : Bits32) : Bool := f32Exponent b != 255

/-- `f32(b)` without its sign, for a finite pattern: `fr * 2^-149` when the exponent field is 0, else
`(2^23 + fr) * 2^(e - 150)`. -/
def f32Magnitude (b : Bits32) : ℚ :=
  if f32Exponent b = 0 then (f32Fraction b : ℚ) / 2 ^ 149
  else ((2 ^ 23 + f32Fraction b : Nat) : ℚ) * 2 ^ f32Exponent b / 2 ^ 150

/-- `f32(b)`, the real value of a finite pattern `b` (R15). No command computes with it; statements use it. -/
def f32 (b : Bits32) : ℚ := if b.msb then -f32Magnitude b else f32Magnitude b

/-- The pattern of 1.0 (R15, R111). -/
def onePattern : Bits32 := 0x3F800000#32

/-- A pattern from a biased exponent and a number whose low 23 bits are the fraction. -/
def f32Pattern (exponent significand : Nat) : Bits32 :=
  BitVec.ofNat 32 ((exponent <<< 23) ||| (significand &&& 0x7FFFFF))

/-- `m`, the bits of a lane that are kept: a logical right shift by `cfg.CVT_SH` (R111, R112). -/
def mantissa (c : Cfg) (x : Bits32) : Bits32 := x >>> c.cvtSh

/-- `cvt12_lane` (R112): to [1, 2). -/
def cvt12Lane (c : Cfg) (x : Bits32) : Bits32 := onePattern ||| mantissa c x

/-- `cvt01_lane` (R113): to [0, 1); the subtraction of 1.0 is exact. -/
def cvt01Lane (c : Cfg) (x : Bits32) : Bits32 :=
  let m := (mantissa c x).toNat
  if m = 0 then 0#32
  else
    let k := m.log2
    f32Pattern (104 + k) (m <<< (23 - k))

/-- `CVT12` (R112). -/
def cvt12 (c : Cfg) (E : Bits128) : Bits128 := mapLanes (cvt12Lane c) E

/-- `CVT01` (R113). -/
def cvt01 (c : Cfg) (E : Bits128) : Bits128 := mapLanes (cvt01Lane c) E

/-- Round to nearest, ties to even: `a / 2^r` for r > 0 (R127, R131). -/
def roundShift (a r : Nat) : Nat :=
  let q := a / 2 ^ r
  let rem := a % 2 ^ r
  let half := 2 ^ (r - 1)
  if half < rem ∨ (rem = half ∧ q % 2 = 1) then q + 1 else q

/-- `THRESH` (R127): `n` = p * 2^23 rounded, for a pattern in contract. -/
def thresh (prob : Bits32) : Nat :=
  let b := if prob = negZero then 0#32 else prob
  let e := f32Exponent b
  let sig := if e = 0 then f32Fraction b else 0x800000 + f32Fraction b
  let r := 127 - max e 1
  if r = 0 then sig else roundShift sig r

/-- The pattern of the threshold, `T = 0x3F800000 + n` (R127). -/
def thresholdPattern (n : Nat) : Nat := onePattern.toNat + n

/-- The strict less-than on one lane (R128, R129): for positive values the order of the values is the order of the
patterns. -/
def belowThreshold (c : Cfg) (n : Nat) (x : Bits32) : Bool :=
  (cvt12Lane c x).toNat < thresholdPattern n

/-- `CNT2F` (R131): the binary32 value nearest to the count, ties to even. -/
def cnt2f (count : Nat) : Bits32 :=
  if count = 0 then 0#32
  else
    let k := count.log2
    if k ≤ 23 then f32Pattern (127 + k) (count <<< (23 - k))
    else
      let q := roundShift count (k - 23)
      if q = 2 ^ 24 then f32Pattern (127 + (k + 1)) (2 ^ 23) else f32Pattern (127 + k) q

end Sys2Proof.Machine
end

