-- ==== Sys2Proof/Machine/Recurrence.lean ====
section
/-! DEFINITION. The scalar steppers (R85 to R87), the jump-ahead initializer (R89 to R92) and the vectorized advancer
(R100, R101). -/

namespace Sys2Proof.Machine

/-- Componentwise exclusive or of scalar states (R85, R91). -/
def Scalar.xor (u v : Scalar) : Scalar := ⟨u.x0 ^^^ v.x0, u.x1 ^^^ v.x1⟩

/-- The all-zero scalar state (R85). -/
def Scalar.zero : Scalar := ⟨0, 0⟩

/-- `SSTEP_RSX` (R86). -/
def sstepRsx (c : Cfg) (x : Scalar) : Scalar :=
  let t := x.x0 ^^^ x.x1
  ⟨rotl64 x.x0 c.rsxA ^^^ t ^^^ (t <<< c.rsxB), rotl64 t c.rsxC⟩

/-- `SSTEP_SXA` (R87). -/
def sstepSxa (c : Cfg) (x : Scalar) : Scalar :=
  let u := x.x0 ^^^ (x.x0 <<< c.sxaA)
  ⟨x.x1, u ^^^ x.x1 ^^^ (u >>> c.sxaB) ^^^ (x.x1 >>> c.sxaC)⟩

/-- `SSTEP_f` (R85). -/
def sstep (c : Cfg) : Family → Scalar → Scalar
  | .rsx => sstepRsx c
  | .sxa => sstepSxa c

/-- `JUMP_f` (R89). -/
def jumpPoly (c : Cfg) : Family → Bits128
  | .rsx => c.jumpRsx
  | .sxa => c.jumpSxa

/-- The loop of R91 with `n` bits left, at bit `i`: `W` is the working copy, `R` the result. -/
def jumpLoop (step : Scalar → Scalar) (poly : Bits128) : Nat → Nat → Scalar → Scalar → Scalar
  | 0, _, _, R => R
  | n + 1, i, W, R => jumpLoop step poly n (i + 1) (step W) (if poly.getLsbD i then R.xor W else R)

/-- `JUMPAHEAD_f` (R91, C1): bits 0 to 127 of the polynomial, least significant first. -/
def jumpAhead (c : Cfg) (f : Family) (a : Scalar) : Scalar :=
  jumpLoop (sstep c f) (jumpPoly c f) 128 0 a Scalar.zero

/-- Lane A (R90): the mixer applied twice in sequence. -/
def laneA (c : Cfg) (seed : Bits64) : Scalar := ⟨c.mix seed, c.mix (c.mix seed)⟩

/-- The registers `INIT.f` writes (R90 to R93). -/
def initRegs (c : Cfg) (f : Family) (seed : Bits64) : Regs :=
  packStreams (laneA c seed) (jumpAhead c f (laneA c seed))

/-- `NEXT_f` (R100): both streams take one scalar step, neither influences the other. -/
def next (c : Cfg) (f : Family) (r : Regs) : Regs :=
  packStreams (sstep c f (streamA r)) (sstep c f (streamB r))

/-- The entropy of the post-step registers (R101): lane-wise 64-bit sums that wrap. -/
def entropy (r : Regs) : Bits128 := lanewise64 (· + ·) r.s0 r.s1

/-- `VADV_f` (R101): the registers after the step and their entropy. -/
def vadv (c : Cfg) (f : Family) (r : Regs) : Regs × Bits128 :=
  (next c f r, entropy (next c f r))

end Sys2Proof.Machine
end

