-- ==== Sys2Proof/Machine/Reference.lean ====
section
/-! DEFINITION. The reference instance REF of the configuration (R9, R81, R86, R87, R89) and the configuration the
machine runs. PRESUMED: the constants come from general knowledge, as the spec itself says (G1 to G4; log entry 5). -/

namespace Sys2Proof.Machine

/-- An exclusive or of a word with itself shifted right by 33 (R81). -/
def xorShift33 (x : Bits64) : Bits64 := x ^^^ (x >>> 33)

/-- `MIX_REF` (R81). -/
def mixRef (x : Bits64) : Bits64 :=
  xorShift33 (xorShift33 (xorShift33 x * 0xFF51AFD7ED558CCD#64) * 0xC4CEB9FE1A85EC53#64)

/-- `REF` (R9). -/
def ref : Cfg where
  mix := mixRef
  rsxA := 55
  rsxB := 14
  rsxC := 36
  sxaA := 23
  sxaB := 18
  sxaC := 5
  jumpRsx := 0xD86B048B86AA9922BEAC0467EBA5FACB#128
  jumpSxa := 0x121FD2155C472F968A5CD789635D2DFF#128
  cvtSh := 9
  trialsMax := 2 ^ 24

/-- The configuration the machine runs: REF with `TRIALS_MAX` at 2^31 - 1, so that every trial count in contract runs
with the rounded integer count of R131. DESIGN CHOICE: U6 offers this setting; what is then claimed of counts above
2^24 is a claim about the spec's own decision D14 (log entry 6). -/
def cfg : Cfg := { ref with trialsMax := 2 ^ 31 - 1 }

end Sys2Proof.Machine
end

