-- ==== Sys2Proof/Machine/Ops.lean ====
section
/-! DEFINITION. The shared operations: the host's memory and the bound buffer (R16, R40 to R50), fault entry (R147),
completion (R30), acceptance of a command (R30, R42) and reset (R165). -/

namespace Sys2Proof.Machine

/-! The memory: bytes at strictly rising addresses. An unlisted byte has no value: the block never wrote it, and it
never reads memory (R41; log entry 7). -/

namespace Memory

/-- The canonical form. -/
abbrev wf (m : List Host.Cell) : Prop := m.Pairwise (fun x y => x.1 < y.1)

/-- One byte as the host reads it; `none` where nothing was written. -/
def read : List Host.Cell → Nat → Option Byte
  | [], _ => none
  | (a, v) :: m, x => if x = a then some v else read m x

/-- One byte written, in order. -/
def write : List Host.Cell → Nat → Byte → List Host.Cell
  | [], x, w => [(x, w)]
  | (a, v) :: m, x, w =>
    if x < a then (x, w) :: (a, v) :: m
    else if x = a then (x, w) :: m
    else (a, v) :: write m x w

/-- The byte at offset `i` of an element holds its bits `8i+7:8i`: little-endian (R45). -/
def elemByte (v : Bits32) (i : Nat) : Byte := v.extractLsb' (8 * i) 8

/-- The host address of byte `i` of the element at byte offset `off` of a buffer (R42, R45). -/
def byteAddr (b : Buffer) (off i : Nat) : Nat := b.base + off + i

/-- `MemWrite(off, 4, v)` (R16, R42): one 32-bit element, whole (R47). -/
def memWrite (b : Buffer) (off : Nat) (v : Bits32) (m : List Host.Cell) : List Host.Cell :=
  let m1 := write m (byteAddr b off 0) (elemByte v 0)
  let m2 := write m1 (byteAddr b off 1) (elemByte v 1)
  let m3 := write m2 (byteAddr b off 2) (elemByte v 2)
  write m3 (byteAddr b off 3) (elemByte v 3)

/-- `BufWrite(pos, v)` is `MemWrite(4*pos, 4, v)` (R16). -/
def bufWrite (b : Buffer) (pos : Nat) (v : Bits32) (m : List Host.Cell) : List Host.Cell :=
  memWrite b (4 * pos) v m

/-- Beat `j`: lane k of `V` goes to position `4j + k`, for k = 0 .. 3 in order (R44). -/
def storeBeat (b : Buffer) (j : Nat) (V : Bits128) (m : List Host.Cell) : List Host.Cell :=
  let m1 := bufWrite b (4 * j) (lane 0 V) m
  let m2 := bufWrite b (4 * j + 1) (lane 1 V) m1
  let m3 := bufWrite b (4 * j + 2) (lane 2 V) m2
  bufWrite b (4 * j + 3) (lane 3 V) m3

/-- Beats `j`, `j+1`, ... in increasing order (R49). -/
def storeBurst (b : Buffer) : Nat → List Bits128 → List Host.Cell → List Host.Cell
  | _, [], m => m
  | j, V :: Vs, m => storeBurst b (j + 1) Vs (storeBeat b j V m)

/-- One element of a beat, if its bit of `landed` is 1 (R47: the four need not appear together). -/
def storeIfLanded (b : Buffer) (j k : Nat) (V : Bits128) (landed : BitVec 4) (m : List Host.Cell) : List Host.Cell :=
  if landed.getLsbD k then bufWrite b (4 * j + k) (lane k V) m else m

/-- What of a burst is in memory when a reset cuts it: `beats` whole beats, and some elements of the next (R165, U13). -/
def storeCut (b : Buffer) (Vs : List Bits128) (beats : Nat) (landed : BitVec 4) (m : List Host.Cell) : List Host.Cell :=
  let m' := storeBurst b 0 (Vs.take beats) m
  match Vs.drop beats with
  | [] => m'
  | V :: _ =>
    storeIfLanded b beats 3 V landed (storeIfLanded b beats 2 V landed
      (storeIfLanded b beats 1 V landed (storeIfLanded b beats 0 V landed m')))

/-- The element at position `pos` as the host reads it: `none` unless all four bytes were written. -/
def readElem (m : List Host.Cell) (b : Buffer) (pos : Nat) : Option Bits32 :=
  match read m (byteAddr b (4 * pos) 0), read m (byteAddr b (4 * pos) 1), read m (byteAddr b (4 * pos) 2),
    read m (byteAddr b (4 * pos) 3) with
  | some v0, some v1, some v2, some v3 => some (v3 ++ v2 ++ v1 ++ v0)
  | _, _, _, _ => none

end Memory

/-- A burst numbered from beat `j` (R44). -/
def numberBeats : Nat → List Bits128 → List Beat
  | _, [] => []
  | j, V :: Vs => ⟨BitVec.ofNat 30 j, V⟩ :: numberBeats (j + 1) Vs

/-! Fault entry, completion and the outputs. -/

/-- `raise Fault(cause)` (R147): HALT, CAUSE and FCMD, "exactly this and nothing else". There is no return from it but
reset (R148). -/
def raiseFault (cause : Cause) (d : Bits128) (s : State) : State :=
  { s with halt := true, cause := cause, fcmd := d }

/-- A command completes: `done` pulses (R30) and the host counts it (R27). -/
def complete (s : State) : State := { s with done := true, cpc := s.cpc + 1 }

/-- The generator registers and the family tag (R22, R23). -/
def setGen (f : Family) (r : Regs) (s : State) : State := { s with gen := some ⟨f, r⟩ }

/-- `Result(v)` (R16): the value on the result port. -/
def deliverResult (v : Bits128) (s : State) : State := { s with result := some v }

/-- A whole burst delivered: on the output port and, element by element, in the bound buffer (R44, R49, R50). -/
def deliverBurst (Vs : List Bits128) (s : State) : State :=
  { s with burst := numberBeats 0 Vs, mem := Memory.storeBurst s.buf 0 Vs s.mem }

/-- The registers a draw of family f may use: those of a state with `FAM` = 1 + f (R143). -/
def regsFor (f : Family) (s : State) : Option Regs :=
  match s.gen with
  | none => none
  | some g => if g.family = f then some g.regs else none

/-! The host's side of a step. -/

/-- A descriptor is accepted (R30): the buffer is bound to the command (R42) and the ports show nothing yet
(log entry 11). -/
def acceptCommand (b : Buffer) (rest : List HostInput) (s : State) : State :=
  { s with inputs := rest, buf := b, result := none, burst := [], done := false }

/-- `rst` (R165): every register takes its reset value, the caller's buffers are not touched (R33); the host's own
counter stays (log entry 12). -/
def resetBlock (rest : List HostInput) (s : State) : State :=
  { State.reset with mem := s.mem, inputs := rest, cpc := s.cpc }

/-- No descriptor on the command port: a halted block has no step (R148), an idle one waits and its ports show nothing
(log entries 2 and 11). -/
def idleStep (s : State) : Host.Outcome State Fault Refusal :=
  if s.cmdReady then .next { s with result := none, burst := [], done := false } else .fault .halted

/-- `rst` while a command runs (R165): what the command had written stays written; `o` is what the whole command would
have done. A command with no meaning leaves nothing behind it could be cut from. -/
def cutOutcome (beats : Nat) (landed : BitVec 4) (rest : List HostInput) (s : State) :
    Host.Outcome State Fault Refusal → Host.Outcome State Fault Refusal
  | .next t =>
    .next (resetBlock rest { s with mem := Memory.storeCut s.buf (t.burst.map (·.data)) beats landed s.mem })
  | .fault r => .fault r
  | .refused r => .refused r

/-- The buffer a program of the host binds to descriptor `d`: fresh and of exactly `len` elements (95 Part 3). -/
def freshBuffer (base : Nat) (d : Bits128) : Buffer := ⟨base, (fieldLen d).toNat⟩

/-- A host program (R27): its descriptors in order, each with a fresh buffer placed after the one before it. -/
def programInputs : Nat → List Bits128 → List HostInput
  | _, [] => []
  | base, d :: ds =>
    .command d (freshBuffer base d) :: programInputs (base + 4 * (fieldLen d).toNat) ds

/-- A host program presented to the block from address 0 on. -/
def State.withProgram (ds : List Bits128) (s : State) : State := { s with inputs := programInputs 0 ds }

/-- A table word presented on the command port before anything else the host does, with a buffer of its own length. -/
def presentTableWord (nbits w : Nat) (s : State) : State :=
  { s with inputs := .command (tableDescriptor nbits w) (freshBuffer 0 (tableDescriptor nbits w)) :: s.inputs }

end Sys2Proof.Machine
end

