-- ==== Sys2Proof/Machine/Adv.lean ====
section
/-! DEFINITION. ADV.RSX and ADV.SXA (R102). -/

namespace Sys2Proof.Machine

/-- `ADV.f()` (R102); `d` is the command's descriptor, which a fault records. -/
def advCommand (c : Cfg) (f : Family) (d : Bits128) (s : State) : Host.Outcome State Fault Refusal :=
  match regsFor f s with
  | none => .next (raiseFault .familyMismatch d s)
  | some r =>
    let (r', E) := vadv c f r
    .next (complete (deliverResult E (setGen f r' s)))

/-- ADV.RSX (R102, f = 0). -/
def execAdvRsx (s : State) : Host.Outcome State Fault Refusal := advCommand cfg .rsx (encode .advRsx) s

/-- ADV.SXA (R102, f = 1). -/
def execAdvSxa (s : State) : Host.Outcome State Fault Refusal := advCommand cfg .sxa (encode .advSxa) s

end Sys2Proof.Machine
end

