-- ==== Sys2Proof/Machine/Fillb.lean ====
section
/-! DEFINITION. FILLB.RSX and FILLB.SXA (R128 to R132). -/

namespace Sys2Proof.Machine

/-- The 0/1 mask of one trial on one lane (R129). -/
def trialMask (c : Cfg) (n : Nat) (x : Bits32) : Bits32 := if belowThreshold c n x then 1#32 else 0#32

/-- `t` trials from registers `r` with the four success counters in the lanes of `acc` (R128, R130): the counters and the
registers after them. -/
def trialLoop (c : Cfg) (f : Family) (n : Nat) : Nat → Regs → Bits128 → Bits128 × Regs
  | 0, r, acc => (acc, r)
  | t + 1, r, acc =>
    let (r', E) := vadv c f r
    trialLoop c f n t r' (lanewise32 (· + ·) acc (mapLanes (trialMask c n) E))

/-- A counter as the element that is stored (R131). -/
def countElem (count : Bits32) : Bits32 := cnt2f count.toNat

/-- `g` groups of a binomial fill of N trials each, threshold `n` (R128): the values of the beats, and the registers after
them. -/
def binomialGroups (c : Cfg) (f : Family) (N n : Nat) : Nat → Regs → List Bits128 × Regs
  | 0, r => ([], r)
  | g + 1, r =>
    let (acc, r') := trialLoop c f n N r 0#128
    let (Vs, r'') := binomialGroups c f N n g r'
    (mapLanes countElem acc :: Vs, r'')

/-- `FILLB.f(trials, prob, len)` (R128), its checks in the order of R149; `d` is the command's descriptor, which a fault
records. The buffer must hold `len` elements (R43; log entry 8), and N must not pass `cfg.TRIALS_MAX` (U6; log
entry 6). -/
def fillbCommand (c : Cfg) (f : Family) (d : Bits128) (trials prob len : Bits32) (s : State) :
    Host.Outcome State Fault Refusal :=
  match regsFor f s with
  | none => .next (raiseFault .familyMismatch d s)
  | some r =>
    if lenOk len then
      if trialsOk trials then
        if probOk prob then
          if len.toNat ≤ s.buf.cap then
            if trials.toNat ≤ c.trialsMax then
              let (Vs, r') := binomialGroups c f trials.toNat (thresh prob) (groupCount len) r
              .next (complete (deliverBurst Vs (setGen f r' s)))
            else .refused .trialsAboveMax
          else .refused .shortBuffer
        else .next (raiseFault .badProb d s)
      else .next (raiseFault .badTrials d s)
    else .next (raiseFault .badLength d s)

/-- FILLB.RSX (R128, f = 0). -/
def execFillbRsx (trials prob len : Bits32) (s : State) : Host.Outcome State Fault Refusal :=
  fillbCommand cfg .rsx (encode (.fillbRsx trials prob len)) trials prob len s

/-- FILLB.SXA (R128, f = 1). -/
def execFillbSxa (trials prob len : Bits32) (s : State) : Host.Outcome State Fault Refusal :=
  fillbCommand cfg .sxa (encode (.fillbSxa trials prob len)) trials prob len s

end Sys2Proof.Machine
end

