-- ==== Sys2Proof/Machine/Fillu.lean ====
section
/-! DEFINITION. FILLU.RSX and FILLU.SXA (R120). -/

namespace Sys2Proof.Machine

/-- `n` groups of a uniform fill from registers `r` (R120): the values of the beats, and the registers after them. -/
def uniformGroups (c : Cfg) (f : Family) : Nat → Regs → List Bits128 × Regs
  | 0, r => ([], r)
  | n + 1, r =>
    let (r', E) := vadv c f r
    let (Vs, r'') := uniformGroups c f n r'
    (cvt01 c E :: Vs, r'')

/-- `FILLU.f(len)` (R120); `d` is the command's descriptor, which a fault records. The buffer must hold `len` elements
(R43; log entry 8). -/
def filluCommand (c : Cfg) (f : Family) (d : Bits128) (len : Bits32) (s : State) : Host.Outcome State Fault Refusal :=
  match regsFor f s with
  | none => .next (raiseFault .familyMismatch d s)
  | some r =>
    if lenOk len then
      if len.toNat ≤ s.buf.cap then
        let (Vs, r') := uniformGroups c f (groupCount len) r
        .next (complete (deliverBurst Vs (setGen f r' s)))
      else .refused .shortBuffer
    else .next (raiseFault .badLength d s)

/-- FILLU.RSX (R120, f = 0). -/
def execFilluRsx (len : Bits32) (s : State) : Host.Outcome State Fault Refusal :=
  filluCommand cfg .rsx (encode (.filluRsx len)) len s

/-- FILLU.SXA (R120, f = 1). -/
def execFilluSxa (len : Bits32) (s : State) : Host.Outcome State Fault Refusal :=
  filluCommand cfg .sxa (encode (.filluSxa len)) len s

end Sys2Proof.Machine
end

