-- ==== Sys2Proof/Machine/Init.lean ====
section
/-! DEFINITION. INIT.RSX and INIT.SXA (R93). -/

namespace Sys2Proof.Machine

/-- `INIT.f(seed)` (R93): writes the full generator state and FAM, reads none of them, raises nothing. -/
def initCommand (c : Cfg) (f : Family) (seed : Bits64) (s : State) : Host.Outcome State Fault Refusal :=
  .next (complete (setGen f (initRegs c f seed) s))

/-- INIT.RSX (R93, f = 0). -/
def execInitRsx (seed : Bits64) (s : State) : Host.Outcome State Fault Refusal := initCommand cfg .rsx seed s

/-- INIT.SXA (R93, f = 1). -/
def execInitSxa (seed : Bits64) (s : State) : Host.Outcome State Fault Refusal := initCommand cfg .sxa seed s

end Sys2Proof.Machine
end

