-- ==== Sys2Proof/Machine/Dispatch.lean ====
section
/-! DEFINITION. One arm per command; exec is the effect of a command that the command port has accepted (R27, R30). -/

namespace Sys2Proof.Machine

def exec (i : Instr) (s : State) : Host.Outcome State Fault Refusal :=
  match i with
  | .initRsx seed => Sys2Proof.Machine.execInitRsx seed s
  | .initSxa seed => Sys2Proof.Machine.execInitSxa seed s
  | .advRsx => Sys2Proof.Machine.execAdvRsx s
  | .advSxa => Sys2Proof.Machine.execAdvSxa s
  | .filluRsx len => Sys2Proof.Machine.execFilluRsx len s
  | .filluSxa len => Sys2Proof.Machine.execFilluSxa len s
  | .fillbRsx trials prob len => Sys2Proof.Machine.execFillbRsx trials prob len s
  | .fillbSxa trials prob len => Sys2Proof.Machine.execFillbSxa trials prob len s

end Sys2Proof.Machine
end

