-- ==== Sys2Proof/Machine/Step.lean ====
section
/-! DEFINITION. One step of the block: what the host does next, and the command it presents (R27, R30, R148, R165). -/

namespace Sys2Proof.Machine

/-- An accepted descriptor runs: an illegal one raises `ILLEGAL_CMD` (R64, R142), any other is its command. -/
def runDescriptor (d : Bits128) (s : State) : Host.Outcome State Fault Refusal :=
  match decode d with
  | .error _ => .next (raiseFault .illegalCmd d s)
  | .ok i => exec i s

/-- The host's next action. A descriptor is accepted only while `cmd_ready` = 1 (R30); a halted block takes nothing but
`rst` (R148). -/
def step (s : State) : Host.Outcome State Fault Refusal :=
  match s.inputs with
  | [] => idleStep s
  | .reset :: rest => .next (resetBlock rest s)
  | .command d b :: rest =>
    if s.cmdReady then runDescriptor d (acceptCommand b rest s) else .fault .halted
  | .commandCut d b beats landed :: rest =>
    if s.cmdReady then
      cutOutcome beats landed rest (acceptCommand b rest s) (runDescriptor d (acceptCommand b rest s))
    else .next (resetBlock rest s)

/-- The state in which the next thing the host does is to present this table word on the command port. The block must
not be halted for it to run (R148). -/
def State.withFetchWord (s : State) (nbits w : Nat) : State := presentTableWord nbits w s

end Sys2Proof.Machine
end

