-- ==== Sys2Proof/WellFormed.lean ====
section
/-! DEFINITION. What a well-formed command and a well-formed configuration are. Every value of `Instr` has a descriptor,
since its operands have the exact widths of R61, and a descriptor with ill-formed operands still decodes (R65):
well-formedness of a command is the precondition of its signature in 30_encoding.md, said on numbers and not on bit patterns. -/

namespace Sys2Proof

/-- "`length > 0 && length % 4 == 0`". -/
def lengthWf (len : Bits32) : Bool := decide (0 < len.toNat ∧ len.toNat % 4 = 0)

/-- "`trials: int (N ≥ 0)`". -/
def trialsWf (trials : Bits32) : Bool := decide (0 ≤ trials.toInt)

/-- "`probability: float (0 ≤ p ≤ 1)`". -/
def probWf (prob : Bits32) : Bool :=
  Machine.f32Finite prob && decide (0 ≤ Machine.f32 prob ∧ Machine.f32 prob ≤ 1)

/-- The preconditions of a command's signature. -/
def Instr.wf : Instr → Bool
  | .initRsx _ => true
  | .initSxa _ => true
  | .advRsx => true
  | .advSxa => true
  | .filluRsx len => lengthWf len
  | .filluSxa len => lengthWf len
  | .fillbRsx trials prob len => lengthWf len && trialsWf trials && probWf prob
  | .fillbSxa trials prob len => lengthWf len && trialsWf trials && probWf prob

/-- R9, R13: a shift or rotation amount is in 1 .. 63. -/
def amountWf (k : Nat) : Bool := decide (1 ≤ k ∧ k ≤ 63)

/-- The constraints of R9: amounts in 1 .. 63, and a converter shift that keeps the result in [1, 2) (R111: 9 is the
least); a trial count has 31 bits (R62, R126). -/
def Cfg.wf (c : Cfg) : Bool :=
  amountWf c.rsxA && amountWf c.rsxB && amountWf c.rsxC && amountWf c.sxaA && amountWf c.sxaB && amountWf c.sxaC
    && decide (9 ≤ c.cvtSh) && decide (c.trialsMax < 2 ^ 31)

end Sys2Proof
end

