-- ==== Sys2Proof/Safety.lean ====
section
/-! DEFINITION. The terms in which claims are made: invariants of the block, the advance number k of a state and the
elements made from it, which cause a descriptor raises first, and what a sequence of commands delivers. -/

namespace Sys2Proof.Machine

/-! ### Advances -/

/-- The registers after `k` advances (R100). -/
def advances (c : Cfg) (f : Family) (k : Nat) (r : Regs) : Regs := (next c f)^[k] r

/-- The entropy of advance number `k`, counted from 1 (R101). -/
def drawEntropy (c : Cfg) (f : Family) (r : Regs) (k : Nat) : Bits128 := entropy (advances c f k r)

/-- The element a uniform fill from registers `r` owes to position `pos`: group `pos/4` is made from advance `pos/4 + 1`,
and position `4j + k` from 32-bit lane k (R44, R120, R121). -/
def uniformElem (c : Cfg) (f : Family) (r : Regs) (pos : Nat) : Bits32 :=
  cvt01Lane c (lane (pos % 4) (drawEntropy c f r (pos / 4 + 1)))

/-- Trial `t` (counted from 0) of position `pos` succeeds: advance `j*N + t + 1` of group j, with the integer comparison
of R129. -/
def trialSucceeds (c : Cfg) (f : Family) (N n : Nat) (r : Regs) (pos t : Nat) : Bool :=
  (mantissa c (lane (pos % 4) (drawEntropy c f r (pos / 4 * N + t + 1)))).toNat < n

/-- How many of the N trials of position `pos` succeed (R128). -/
def successes (c : Cfg) (f : Family) (N n : Nat) (r : Regs) (pos : Nat) : Nat :=
  (List.range N).countP (trialSucceeds c f N n r pos)

/-- The exclusive or of a list of scalar states. -/
def xorSum : List Scalar → Scalar
  | [] => Scalar.zero
  | x :: xs => x.xor (xorSum xs)

/-- The polynomial `poly` evaluated at the operator `T`, on `x`: the sum over its set bits i of `T` applied i times (R91). -/
def evalPoly (poly : Bits128) (T : Scalar → Scalar) (x : Scalar) : Scalar :=
  xorSum (((List.range 128).filter (fun i => poly.getLsbD i)).map (fun i => T^[i] x))

/-- The all-zero generator registers (R94). -/
def Regs.zero : Regs := ⟨0, 0⟩

/-! ### Commands -/

/-- The rows of R63: mask and match. -/
def opcodeRows : List (Bits128 × Bits128) :=
  [(0x0000000000000000FFFFFFFFFFFFFFFF#128, 0x00000000000000000000000000000001#128),
   (0x0000000000000000FFFFFFFFFFFFFFFF#128, 0x00000000000000000000000000000011#128),
   (0xFFFFFFFFFFFFFFFFFFFFFFFFFFFFFFFF#128, 0x00000000000000000000000000000002#128),
   (0xFFFFFFFFFFFFFFFFFFFFFFFFFFFFFFFF#128, 0x00000000000000000000000000000012#128),
   (0xFFFFFFFFFFFFFFFF00000000FFFFFFFF#128, 0x00000000000000000000000000000003#128),
   (0xFFFFFFFFFFFFFFFF00000000FFFFFFFF#128, 0x00000000000000000000000000000013#128),
   (0x000000000000000000000000FFFFFFFF#128, 0x00000000000000000000000000000004#128),
   (0x000000000000000000000000FFFFFFFF#128, 0x00000000000000000000000000000014#128)]

/-- `INIT.f`. -/
def initOf : Family → Bits64 → Instr
  | .rsx => .initRsx
  | .sxa => .initSxa

/-- `ADV.f`. -/
def advOf : Family → Instr
  | .rsx => .advRsx
  | .sxa => .advSxa

/-- `FILLU.f`. -/
def filluOf : Family → Bits32 → Instr
  | .rsx => .filluRsx
  | .sxa => .filluSxa

/-- `FILLB.f`. -/
def fillbOf : Family → Bits32 → Bits32 → Bits32 → Instr
  | .rsx => .fillbRsx
  | .sxa => .fillbSxa

/-- The family bit of a command (R61). -/
def family : Instr → Family
  | .initRsx _ => .rsx
  | .initSxa _ => .sxa
  | .advRsx => .rsx
  | .advSxa => .sxa
  | .filluRsx _ => .rsx
  | .filluSxa _ => .sxa
  | .fillbRsx _ _ _ => .rsx
  | .fillbSxa _ _ _ => .sxa

/-- `INIT.f`; every other command is a draw (R143). -/
def isInit : Instr → Bool
  | .initRsx _ => true
  | .initSxa _ => true
  | .advRsx => false
  | .advSxa => false
  | .filluRsx _ => false
  | .filluSxa _ => false
  | .fillbRsx _ _ _ => false
  | .fillbSxa _ _ _ => false

/-- The length of a fill; a command that is no fill has none. -/
def fillLen : Instr → Option Bits32
  | .initRsx _ => none
  | .initSxa _ => none
  | .advRsx => none
  | .advSxa => none
  | .filluRsx len => some len
  | .filluSxa len => some len
  | .fillbRsx _ _ len => some len
  | .fillbSxa _ _ len => some len

/-- The trial count and probability of a binomial fill. -/
def binomialOperands : Instr → Option (Bits32 × Bits32)
  | .initRsx _ => none
  | .initSxa _ => none
  | .advRsx => none
  | .advSxa => none
  | .filluRsx _ => none
  | .filluSxa _ => none
  | .fillbRsx trials prob _ => some (trials, prob)
  | .fillbSxa trials prob _ => some (trials, prob)

/-- The conditions of R142 to R146 on a descriptor in a state, in the order of R149, said on numbers. -/
def causeConditions (s : State) (d : Bits128) : List (Cause × Bool) :=
  match decode d with
  | .error _ => [(.illegalCmd, true)]
  | .ok i =>
    [(.familyMismatch, !isInit i && s.fam != famCode (family i)),
     (.badLength, (fillLen i).any (fun len => !lengthWf len)),
     (.badTrials, (binomialOperands i).any (fun o => !trialsWf o.1)),
     (.badProb, (binomialOperands i).any (fun o => !probWf o.2))]

/-- The cause reported for a descriptor: the first condition that holds (R149). -/
def firstCause (s : State) (d : Bits128) : Option Cause :=
  ((causeConditions s d).find? (·.2)).map (·.1)

/-- A buffer holds what the command writes (R43). -/
def bufferHolds (b : Buffer) (i : Instr) : Prop := ∀ len, fillLen i = some len → len.toNat ≤ b.cap

/-- The state a fault of cause `c` leaves, register by register (R147). -/
def faultState (c : Cause) (d : Bits128) (s : State) : State where
  gen := s.gen
  halt := true
  cause := c
  fcmd := d
  result := s.result
  burst := s.burst
  done := s.done
  mem := s.mem
  buf := s.buf
  inputs := s.inputs
  cpc := s.cpc

/-! ### Outputs of a sequence of commands -/

/-- What a command shows the host: the result, the beats and whether it completed. -/
structure Shown where
  result : Option Bits128
  burst : List Beat
  done : Bool
deriving DecidableEq, Repr

/-- What one step's state shows of the command. -/
def State.shown (s : State) : Shown := ⟨s.result, s.burst, s.done⟩

/-- Everything one step's state shows the host: the outputs of the command and the status port (R30). -/
def State.ports (s : State) : Shown × Bits32 × Bits128 := (s.shown, s.status, s.fcmd)

/-- What the next `n` steps show in a view of the state, and nothing of any step after a stop. -/
def outputs {α : Type} (view : State → α) : Nat → State → List α
  | 0, _ => []
  | n + 1, s =>
    match step s with
    | .next t => view t :: outputs view n t
    | .fault _ => []
    | .refused _ => []

/-! ### Invariants -/

/-- HALT, CAUSE and FCMD agree (R28, R29), and the ports show something only when a command has just completed (R30,
R147). -/
def State.Coherent (s : State) : Prop :=
  (s.halt = false → s.cause = .noFault ∧ s.fcmd = 0#128) ∧
  (s.halt = true → s.cause ≠ .noFault ∧ s.done = false) ∧
  (s.done = false → s.result = none ∧ s.burst = [])

/-- Stream B is stream A advanced by the jump (R25, R104). -/
def LanesOffset (c : Cfg) (g : GenState) : Prop :=
  streamB g.regs = jumpAhead c g.family (streamA g.regs)

/-- Every generator state the block holds has its streams at the jump distance (R25). -/
def State.StreamsOffset (c : Cfg) (s : State) : Prop := ∀ g, s.gen = some g → LanesOffset c g

/-- The memory keeps its canonical form. -/
def State.MemoryCanonical (s : State) : Prop := Memory.wf s.mem

/-- An address that belongs to the first `len` elements of a buffer (R42, R45). -/
def inBuffer (b : Buffer) (len a : Nat) : Prop := b.base ≤ a ∧ a < b.base + 4 * len

/-- The element at position `pos` had landed when the command was cut: its group was written whole, or it is one of the
elements of the next group that had landed (R47, R49; log entry 13). -/
def hadLanded (beats : Nat) (landed : BitVec 4) (pos : Nat) : Prop :=
  pos / 4 < beats ∨ pos / 4 = beats ∧ landed.getLsbD (pos % 4) = true

/-- A safe run takes a step and does not fault: the block is not halted after it (R148). -/
def State.StepsSafely (s : State) : Prop := ∃ t, step s = .next t ∧ t.halt = false

end Sys2Proof.Machine
end

