-- ==== Sys2Proof/Certificates/Slice0/Obligations.lean ====
section
/-! DEFINITION. The statements for the provers, from the numbered rules of spec/. Nothing here is about a program. -/

open Sys2Proof Sys2Proof.Machine

/-! ### Encoding -/

/-- R63 and the fields of R61, R62: a descriptor selects a row when `d & mask == match`, and its operands are the fields
with no scaling, shifting or extension; the rows are disjoint. -/
def Obligations.DecodeSelectsRowByMaskAndMatch : Prop :=
  (∀ d : Bits128,
    (d &&& 0x0000000000000000FFFFFFFFFFFFFFFF#128 = 0x00000000000000000000000000000001#128 ↔
      decode d = .ok (.initRsx (d.extractLsb' 64 64))) ∧
    (d &&& 0x0000000000000000FFFFFFFFFFFFFFFF#128 = 0x00000000000000000000000000000011#128 ↔
      decode d = .ok (.initSxa (d.extractLsb' 64 64))) ∧
    (d &&& 0xFFFFFFFFFFFFFFFFFFFFFFFFFFFFFFFF#128 = 0x00000000000000000000000000000002#128 ↔
      decode d = .ok .advRsx) ∧
    (d &&& 0xFFFFFFFFFFFFFFFFFFFFFFFFFFFFFFFF#128 = 0x00000000000000000000000000000012#128 ↔
      decode d = .ok .advSxa) ∧
    (d &&& 0xFFFFFFFFFFFFFFFF00000000FFFFFFFF#128 = 0x00000000000000000000000000000003#128 ↔
      decode d = .ok (.filluRsx (d.extractLsb' 32 32))) ∧
    (d &&& 0xFFFFFFFFFFFFFFFF00000000FFFFFFFF#128 = 0x00000000000000000000000000000013#128 ↔
      decode d = .ok (.filluSxa (d.extractLsb' 32 32))) ∧
    (d &&& 0x000000000000000000000000FFFFFFFF#128 = 0x00000000000000000000000000000004#128 ↔
      decode d = .ok (.fillbRsx (d.extractLsb' 64 32) (d.extractLsb' 96 32) (d.extractLsb' 32 32))) ∧
    (d &&& 0x000000000000000000000000FFFFFFFF#128 = 0x00000000000000000000000000000014#128 ↔
      decode d = .ok (.fillbSxa (d.extractLsb' 64 32) (d.extractLsb' 96 32) (d.extractLsb' 32 32)))) ∧
  opcodeRows.Pairwise (fun p q => ∀ d : Bits128, ¬(d &&& p.1 = p.2 ∧ d &&& q.1 = q.2))

/-- R64, R142: exactly the listed descriptors are illegal, and one that the block accepts raises `ILLEGAL_CMD` and has no
other effect. -/
def Obligations.IllegalDescriptorsRaiseIllegalCmd : Prop :=
  (∀ d : Bits128, (∃ e, decode d = .error e) ↔
    (d.extractLsb' 0 4 = 0#4 ∨ 5 ≤ (d.extractLsb' 0 4).toNat) ∨
    d.extractLsb' 5 27 ≠ 0#27 ∨
    ((d.extractLsb' 0 4 = 1#4 ∨ d.extractLsb' 0 4 = 2#4) ∧ d.extractLsb' 32 32 ≠ 0#32) ∨
    ((d.extractLsb' 0 4 = 2#4 ∨ d.extractLsb' 0 4 = 3#4) ∧ d.extractLsb' 64 64 ≠ 0#64)) ∧
  (∃ e, decode 0#128 = .error e) ∧
  ∀ (s : State) (d : Bits128) (b : Buffer) (rest : List HostInput) (e : DecodeError),
    s.halt = false → s.inputs = .command d b :: rest → decode d = .error e →
    step s = .next (faultState .illegalCmd d (acceptCommand b rest s))

/-- No bit of a command is dropped by its descriptor (R61 to R63): decoding an encoded command gives it back, whatever
its operands, well-formed or not (R65). -/
def Obligations.DecodeEncodeGivesCommandBack : Prop :=
  ∀ i : Instr, decode (encode i) = .ok i

/-- Each legal descriptor has one meaning and each command one descriptor (R63, R64): a descriptor that decodes is the
encoding of what it decodes to. -/
def Obligations.EncodeDecodeGivesDescriptorBack : Prop :=
  ∀ (d : Bits128) (i : Instr), decode d = .ok i → encode i = d

/-- Descriptors of 95_test_vectors.md section 2.10, one per command, and four illegal ones. -/
def Obligations.SampleDescriptorsDecode : Prop :=
  decode 0x000000000000002A0000000000000001#128 = .ok (.initRsx 42) ∧
  decode 0x000000000000002A0000000000000011#128 = .ok (.initSxa 42) ∧
  decode 0x00000000000000000000000000000002#128 = .ok .advRsx ∧
  decode 0x00000000000000000000000000000012#128 = .ok .advSxa ∧
  decode 0x00000000000000000000000400000003#128 = .ok (.filluRsx 4) ∧
  decode 0x000000000000000000000FA000000013#128 = .ok (.filluSxa 4000) ∧
  decode 0x3F000000000000640000019000000004#128 = .ok (.fillbRsx 100 0x3F000000 400) ∧
  decode 0x3F000000000000030000000800000014#128 = .ok (.fillbSxa 3 0x3F000000 8) ∧
  decode 0x00000000000000000000000000000000#128 = .error .noSuchOp ∧
  decode 0x00000000000000000000000000000022#128 = .error .reservedBitsSet ∧
  decode 0x00000000000000000000000400000002#128 = .error .lenMustBeZero ∧
  decode 0x00000000000000010000000400000003#128 = .error .argMustBeZero

/-! ### One step -/

/-- R27, R30: when the block is not halted and the host presents a descriptor that decodes to a command, the step is
that command's effect on the state in which the descriptor is taken and the buffer is bound. That the ports show nothing in
that state (result, burst and done cleared) is the model's choice (log entry 11). -/
def Obligations.StepRunsDecodedCommand : Prop :=
  ∀ (s : State) (d : Bits128) (b : Buffer) (rest : List HostInput) (i : Instr),
    s.halt = false → s.inputs = .command d b :: rest → decode d = .ok i →
    step s = exec i { s with inputs := rest, buf := b, result := none, burst := [], done := false }

/-- The model's choice (log entries 2, 9 and 11): with nothing presented, a block that is not halted waits, with every
register and all memory unchanged and its ports cleared (result, burst and done); so the reset state with no input steps to
itself. -/
def Obligations.IdleBlockChangesNoRegister : Prop :=
  (∀ s : State, s.halt = false → s.inputs = [] →
    step s = .next { s with result := none, burst := [], done := false }) ∧
  step State.reset = .next State.reset

/-! ### Scalar steppers, mixer and jump -/

/-- R85: each scalar step is linear over the two-element field and fixes zero, and the vectorized advancer is the same
function applied to both streams. -/
def Obligations.ScalarStepsAreLinear : Prop :=
  ∀ (c : Cfg) (f : Family),
    (∀ u v : Scalar, sstep c f (u.xor v) = (sstep c f u).xor (sstep c f v)) ∧
    sstep c f Scalar.zero = Scalar.zero ∧
    ∀ r : Regs, streamA (next c f r) = sstep c f (streamA r) ∧ streamB (next c f r) = sstep c f (streamB r)

/-- R86, R87 under REF with the invertibility R88 infers: both scalar steps are bijections, so no state but zero maps to
zero. Rests on the spec's own inference in R88 and on REF (log entry 5). -/
def Obligations.ReferenceStepsAreBijective : Prop :=
  ∀ f : Family, Function.Bijective (sstep ref f) ∧ ∀ x : Scalar, sstep ref f x = Scalar.zero ↔ x = Scalar.zero

/-- R81, with the corner case R82 infers: the mixer of REF is a bijection and 0 is the only operand that gives 0. Rests on
REF (log entry 5). -/
def Obligations.ReferenceMixerIsBijective : Prop :=
  Function.Bijective ref.mix ∧ ∀ x : Bits64, ref.mix x = 0#64 ↔ x = 0#64

/-- R91: the jump is the sum over the set bits i of the jump polynomial of the scalar step applied i times. -/
def Obligations.JumpAheadEvaluatesPolynomial : Prop :=
  ∀ (c : Cfg) (f : Family) (a : Scalar), jumpAhead c f a = evalPoly (jumpPoly c f) (sstep c f) a

/-- R25, R104 (the spec marks them as derived): the offset between the streams is made by `INIT`, whatever the
configuration, and kept by every advance; after k advances both streams are k steps on. -/
def Obligations.AdvancesKeepStreamOffset : Prop :=
  ∀ (c : Cfg) (f : Family),
    (∀ seed : Bits64, LanesOffset c ⟨f, initRegs c f seed⟩) ∧
    (∀ r : Regs, LanesOffset c ⟨f, r⟩ → LanesOffset c ⟨f, next c f r⟩) ∧
    ∀ (seed : Bits64) (k : Nat),
      streamA (advances c f k (initRegs c f seed)) = (sstep c f)^[k] (laneA c seed) ∧
      streamB (advances c f k (initRegs c f seed)) = (sstep c f)^[k] (jumpAhead c f (laneA c seed))

/-- R96, R104 under REF: the jump distance is exactly 2^64, so at every moment stream B is stream A advanced by 2^64
scalar steps. Rests on the constants of REF and on the spec's own computation in R96 (log entry 5). -/
def Obligations.ReferenceJumpIsTwoPow64Steps : Prop :=
  ∀ (f : Family),
    (∀ a : Scalar, jumpAhead ref f a = (sstep ref f)^[2 ^ 64] a) ∧
    ∀ (seed : Bits64) (k : Nat),
      streamB (advances ref f k (initRegs ref f seed)) =
        (sstep ref f)^[2 ^ 64] (streamA (advances ref f k (initRegs ref f seed)))

/-! ### INIT -/

/-- R90, R91, R92: `INIT.f` completes in every state, with any seed. Lane A is the mixer applied twice in sequence, lane B
the jump polynomial evaluated on it, and the four words stand in the layout of R21; `FAM` becomes 1 + f. Everything else
is as before but the completion pulse and the host's count. -/
def Obligations.InitWritesGeneratorState : Prop :=
  ∀ (f : Family) (seed : Bits64) (s : State), ∃ r : Regs,
    exec (initOf f seed) s = .next { s with gen := some ⟨f, r⟩, done := true, cpc := s.cpc + 1 } ∧
    (let a : Scalar := ⟨cfg.mix seed, cfg.mix (cfg.mix seed)⟩
     let b : Scalar := evalPoly (jumpPoly cfg f) (sstep cfg f) a
     r.s0 = b.x0 ++ a.x0 ∧ r.s1 = b.x1 ++ a.x1)

/-- R94 and the zero corner R82 infers: `INIT.f` leaves the all-zero state exactly when the mixer maps both the seed and
0 to 0, which under REF is seed 0 and no other. Rests on the spec's own inference and, for the second part, on REF (log
entry 5). -/
def Obligations.ZeroStateOnlyFromZeroSeed : Prop :=
  (∀ (c : Cfg) (f : Family) (seed : Bits64), initRegs c f seed = Regs.zero ↔ c.mix seed = 0#64 ∧ c.mix 0#64 = 0#64) ∧
  ∀ (f : Family) (seed : Bits64) (s t : State), exec (initOf f seed) s = .next t →
    (t.gen = some ⟨f, Regs.zero⟩ ↔ seed = 0#64)

/-- R94, R179 "Determinism" (with R22: `INIT` reads no register): two blocks that are not halted and are given the same
`INIT` and then the same inputs show the host the same results, beats and completions for ever, whatever their registers,
ports and memory held before (that a port which shows nothing new is cleared is log entry 11). The STATUS and FCMD ports
are the same too, where CAUSE and FCMD of both blocks agreed with HALT before, as they do in every state a run reaches. -/
def Obligations.InitErasesThePast : Prop :=
  ∀ (f : Family) (seed : Bits64) (b : Buffer) (rest : List HostInput) (s t : State) (n : Nat),
    s.halt = false → t.halt = false →
    s.inputs = .command (encode (initOf f seed)) b :: rest →
    t.inputs = .command (encode (initOf f seed)) b :: rest →
    outputs State.shown n s = outputs State.shown n t ∧
    (s.Coherent → t.Coherent → outputs State.ports n s = outputs State.ports n t)

/-! ### ADV -/

/-- R100, R101: `ADV.f` on a state of family f completes. Each word pair takes one scalar step, the result port carries
the lane-wise sums modulo 2^64 of the words after the step, and nothing else changes but the completion pulse and the
host's count. -/
def Obligations.AdvReturnsPostStepSums : Prop :=
  ∀ (f : Family) (r : Regs) (s : State), s.gen = some ⟨f, r⟩ →
    let a := sstep cfg f ⟨r.s0.extractLsb' 0 64, r.s1.extractLsb' 0 64⟩
    let b := sstep cfg f ⟨r.s0.extractLsb' 64 64, r.s1.extractLsb' 64 64⟩
    exec (advOf f) s = .next
      { s with
        gen := some ⟨f, ⟨b.x0 ++ a.x0, b.x1 ++ a.x1⟩⟩
        result := some ((b.x0 + b.x1) ++ (a.x0 + a.x1))
        done := true
        cpc := s.cpc + 1 }

/-- R100, R14: neither stream influences the other. Registers that agree on one word before an advance agree on that
word after it, and so do their entropies. -/
def Obligations.StreamsDoNotInteract : Prop :=
  ∀ (c : Cfg) (f : Family) (r q : Regs),
    (w0 r.s0 = w0 q.s0 → w0 r.s1 = w0 q.s1 →
      w0 (vadv c f r).1.s0 = w0 (vadv c f q).1.s0 ∧ w0 (vadv c f r).1.s1 = w0 (vadv c f q).1.s1 ∧
      w0 (vadv c f r).2 = w0 (vadv c f q).2) ∧
    (w1 r.s0 = w1 q.s0 → w1 r.s1 = w1 q.s1 →
      w1 (vadv c f r).1.s0 = w1 (vadv c f q).1.s0 ∧ w1 (vadv c f r).1.s1 = w1 (vadv c f q).1.s1 ∧
      w1 (vadv c f r).2 = w1 (vadv c f q).2)

/-! ### Converters, threshold, counts -/

/-- R112 (shift 9, as REF and the machine have it): the pattern is `0x3F800000 + m` with m the top 23 bits of the lane,
positive, finite, with exponent 127, and its value is exactly `1 + m * 2^-23`; the four lanes of `CVT12` are converted
each on its own. -/
def Obligations.Converter12IsOnePlusMantissa : Prop :=
  (∀ x : Bits32,
    (cvt12Lane cfg x).toNat = 0x3F800000 + x.toNat / 2 ^ 9 ∧
    (cvt12Lane cfg x).msb = false ∧ f32Exponent (cvt12Lane cfg x) = 127 ∧
    f32Fraction (cvt12Lane cfg x) = x.toNat / 2 ^ 9 ∧
    f32 (cvt12Lane cfg x) = 1 + ((x.toNat / 2 ^ 9 : Nat) : ℚ) / 2 ^ 23) ∧
  ∀ (E : Bits128) (k : Nat), k < 4 → lane k (cvt12 cfg E) = cvt12Lane cfg (lane k E)

/-- R113: the value of the [0, 1) converter is that of the [1, 2) converter less 1.0, exactly; +0.0 and nothing else
stands for 0, and the greatest and the least positive result are those of m = 2^23 - 1 and m = 1; the four lanes of `CVT01`
are converted each on its own. -/
def Obligations.Converter01IsExactSubtraction : Prop :=
  (∀ x : Bits32,
    f32 (cvt01Lane cfg x) = f32 (cvt12Lane cfg x) - 1 ∧
    f32 (cvt01Lane cfg x) = ((x.toNat / 2 ^ 9 : Nat) : ℚ) / 2 ^ 23 ∧
    (cvt01Lane cfg x).msb = false ∧
    (x.toNat / 2 ^ 9 = 0 ↔ cvt01Lane cfg x = 0#32) ∧
    (x.toNat / 2 ^ 9 = 1 ↔ cvt01Lane cfg x = 0x34000000#32) ∧
    (x.toNat / 2 ^ 9 = 2 ^ 23 - 1 ↔ cvt01Lane cfg x = 0x3F7FFFFE#32)) ∧
  ∀ (E : Bits128) (k : Nat), k < 4 → lane k (cvt01 cfg E) = cvt01Lane cfg (lane k E)

/-- R114 (which the spec derives): every uniform is finite, not negative (not -0.0 either), not subnormal, and in
[0.0, 1.0). -/
def Obligations.Converter01StaysInUnitInterval : Prop :=
  ∀ x : Bits32,
    f32Finite (cvt01Lane cfg x) = true ∧ (cvt01Lane cfg x).msb = false ∧
    (f32Exponent (cvt01Lane cfg x) = 0 ∧ cvt01Lane cfg x = 0#32 ∨
      104 ≤ f32Exponent (cvt01Lane cfg x) ∧ f32Exponent (cvt01Lane cfg x) ≤ 126) ∧
    0 ≤ f32 (cvt01Lane cfg x) ∧ f32 (cvt01Lane cfg x) < 1

/-- R115: bits 8:0 of each lane have no influence: lanes of two entropies that agree on their top 23 bits are converted
alike by both converters and succeed in the same trials. -/
def Obligations.LowNineBitsAreDiscarded : Prop :=
  ∀ (E F : Bits128), (∀ k, k < 4 → (lane k E).toNat / 2 ^ 9 = (lane k F).toNat / 2 ^ 9) →
    cvt12 cfg E = cvt12 cfg F ∧ cvt01 cfg E = cvt01 cfg F ∧
    ∀ n, mapLanes (trialMask cfg n) E = mapLanes (trialMask cfg n) F

/-- R126: a pattern is in contract exactly when it is a number p (no NaN, no infinity) with 0 ≤ p ≤ 1; -0.0 is in. -/
def Obligations.ProbabilityContractOnPatterns : Prop :=
  (∀ b : Bits32, probOk b = true ↔ f32Finite b = true ∧ 0 ≤ f32 b ∧ f32 b ≤ 1) ∧
  probOk 0x80000000#32 = true ∧ thresh 0x80000000#32 = thresh 0#32 ∧
  ∀ trials : Bits32, trialsOk trials = true ↔ 0 ≤ trials.toInt

/-- R127: the threshold is p * 2^23 rounded to the nearest integer, ties to even, in 0 .. 2^23; it is 0 for p ≤ 2^-24 and
2^23 for p = 1 and for the greatest p below 1. The threshold pattern is `0x3F800000 + n`. -/
def Obligations.ThresholdIsRoundedProbability : Prop :=
  ∀ b : Bits32, probOk b = true →
    thresh b ≤ 2 ^ 23 ∧
    |(thresh b : ℚ) - f32 b * 2 ^ 23| ≤ 1 / 2 ∧
    (|(thresh b : ℚ) - f32 b * 2 ^ 23| = 1 / 2 → thresh b % 2 = 0) ∧
    (f32 b ≤ 1 / 2 ^ 24 → thresh b = 0) ∧
    (b = 0x3F800000#32 ∨ b = 0x3F7FFFFF#32 → thresh b = 2 ^ 23) ∧
    thresholdPattern (thresh b) = 0x3F800000 + thresh b

/-- R129: the trial on a lane is the strict less-than on the values of the uniform and of the threshold pattern, and it
is the integer comparison m < n (the spec derives the second from the first). -/
def Obligations.TrialIsStrictLessThan : Prop :=
  ∀ (x b : Bits32), probOk b = true →
    (belowThreshold cfg (thresh b) x = true ↔
      f32 (cvt12Lane cfg x) < f32 (BitVec.ofNat 32 (0x3F800000 + thresh b))) ∧
    (belowThreshold cfg (thresh b) x = true ↔ x.toNat / 2 ^ 9 < thresh b) ∧
    f32 (BitVec.ofNat 32 (0x3F800000 + thresh b)) = 1 + (thresh b : ℚ) / 2 ^ 23

/-- R131: a count is stored exactly up to 2^24; above, within half a unit of the last place, and a tie goes to the even
pattern. What is said above 2^24 is the spec's own decision D14 (log entry 6). -/
def Obligations.CountConversionIsNearest : Prop :=
  ∀ c : Nat, c < 2 ^ 31 →
    f32Finite (cnt2f c) = true ∧ (cnt2f c).msb = false ∧
    (c ≤ 2 ^ 24 → f32 (cnt2f c) = c) ∧
    (2 ^ 23 ≤ c →
      |f32 (cnt2f c) - c| ≤ (2 ^ (c.log2 - 23) : ℚ) / 2 ∧
      (|f32 (cnt2f c) - c| = (2 ^ (c.log2 - 23) : ℚ) / 2 → (cnt2f c).toNat % 2 = 0))

/-! ### FILLU -/

/-- R120: `FILLU.f(len)` on a state of family f, with a positive multiple of 4 as length and a buffer that holds it,
completes. Position `pos` receives the conversion of its lane of advance `pos/4 + 1`; the registers are advanced exactly
`len/4` times; every byte outside the `len` elements of the bound buffer, and every other register, is as before. -/
def Obligations.UniformFillWritesConvertedAdvances : Prop :=
  ∀ (f : Family) (len : Bits32) (r : Regs) (s : State),
    s.gen = some ⟨f, r⟩ → lengthWf len = true → len.toNat ≤ s.buf.cap →
    ∃ t, exec (filluOf f len) s = .next t ∧
      t.gen = some ⟨f, advances cfg f (len.toNat / 4) r⟩ ∧
      (∀ pos, pos < len.toNat → Memory.readElem t.mem s.buf pos = some (uniformElem cfg f r pos)) ∧
      (∀ a, ¬ inBuffer s.buf len.toNat a → Memory.read t.mem a = Memory.read s.mem a) ∧
      t.done = true ∧ t.result = s.result ∧ t.halt = s.halt ∧ t.cause = s.cause ∧ t.fcmd = s.fcmd ∧
      t.buf = s.buf ∧ t.inputs = s.inputs ∧ t.cpc = s.cpc + 1

/-- R179 "Range": every element a uniform fill writes is a finite value in [0.0, 1.0). -/
def Obligations.UniformFillStaysInUnitInterval : Prop :=
  ∀ (f : Family) (len : Bits32) (s t : State), exec (filluOf f len) s = .next t → t.halt = false →
    ∀ pos, pos < len.toNat → ∃ v, Memory.readElem t.mem s.buf pos = some v ∧
      f32Finite v = true ∧ 0 ≤ f32 v ∧ f32 v < 1

/-! ### FILLB -/

/-- R128, R130: `FILLB.f` on a state of family f, with operands in contract and a buffer that holds `len` elements,
completes for every N. Position `pos` receives the count, out of N, of the trials of its lane whose uniform lies below
the threshold, where trial t of group j is advance `j*N + t`; the registers are advanced exactly `N * len/4` times; every
byte outside the `len` elements, and every other register, is as before. For N above 2^24 this is the spec's own decision
D14 (log entry 6). -/
def Obligations.BinomialFillWritesSuccessCounts : Prop :=
  ∀ (f : Family) (trials prob len : Bits32) (r : Regs) (s : State),
    s.gen = some ⟨f, r⟩ → lengthWf len = true → trialsWf trials = true → probWf prob = true →
    len.toNat ≤ s.buf.cap →
    ∃ t, exec (fillbOf f trials prob len) s = .next t ∧
      t.gen = some ⟨f, advances cfg f (trials.toNat * (len.toNat / 4)) r⟩ ∧
      (∀ pos, pos < len.toNat → Memory.readElem t.mem s.buf pos =
        some (cnt2f (successes cfg f trials.toNat (thresh prob) r pos))) ∧
      (∀ a, ¬ inBuffer s.buf len.toNat a → Memory.read t.mem a = Memory.read s.mem a) ∧
      t.done = true ∧ t.result = s.result ∧ t.halt = s.halt ∧ t.cause = s.cause ∧ t.fcmd = s.fcmd ∧
      t.buf = s.buf ∧ t.inputs = s.inputs ∧ t.cpc = s.cpc + 1

/-- R133, R179 "Binomial bounds": every element a binomial fill writes is the conversion of a count between 0 and N, finite
and not negative (not -0.0 either), and is exactly that count for N up to 2^24. -/
def Obligations.BinomialFillStaysBelowTrialCount : Prop :=
  ∀ (f : Family) (trials prob len : Bits32) (s t : State),
    exec (fillbOf f trials prob len) s = .next t → t.halt = false →
    ∀ pos, pos < len.toNat → ∃ v c, Memory.readElem t.mem s.buf pos = some v ∧ c ≤ trials.toNat ∧ v = cnt2f c ∧
      f32Finite v = true ∧ v.msb = false ∧ (trials.toNat ≤ 2 ^ 24 → f32 v = c)

/-- R132 (its p = 1 and rounding clauses are the spec's inferences from R127 and R129): no trial leaves the registers and
writes zeros; p = 0 (also -0.0, and every p ≤ 2^-24) writes zeros and still advances; p = 1 (also the greatest p below 1)
writes the count N everywhere. -/
def Obligations.BinomialFillDegenerateCases : Prop :=
  ∀ (f : Family) (trials prob len : Bits32) (r : Regs) (s t : State),
    s.gen = some ⟨f, r⟩ → exec (fillbOf f trials prob len) s = .next t → t.halt = false →
    (trials = 0#32 → t.gen = s.gen ∧ ∀ pos, pos < len.toNat → Memory.readElem t.mem s.buf pos = some 0#32) ∧
    (f32 prob ≤ 1 / 2 ^ 24 →
      t.gen = some ⟨f, advances cfg f (trials.toNat * (len.toNat / 4)) r⟩ ∧
      ∀ pos, pos < len.toNat → Memory.readElem t.mem s.buf pos = some 0#32) ∧
    (prob = 0x3F800000#32 ∨ prob = 0x3F7FFFFF#32 →
      ∀ pos, pos < len.toNat → Memory.readElem t.mem s.buf pos = some (cnt2f trials.toNat))

/-- R131 with U6, over every configuration (log entry 6): an otherwise complete `FILLB.f` is admitted exactly up to
`TRIALS_MAX` and refused above it. -/
def Obligations.TrialsMaxDecidesAdmission : Prop :=
  ∀ (c : Cfg) (f : Family) (d : Bits128) (trials prob len : Bits32) (r : Regs) (s : State),
    s.gen = some ⟨f, r⟩ → lengthWf len = true → trialsWf trials = true → probWf prob = true →
    len.toNat ≤ s.buf.cap →
    (trials.toNat ≤ c.trialsMax → ∃ t, fillbCommand c f d trials prob len s = .next t ∧ t.done = true ∧
      t.gen = some ⟨f, advances c f (trials.toNat * (len.toNat / 4)) r⟩) ∧
    (c.trialsMax < trials.toNat → fillbCommand c f d trials prob len s = .refused .trialsAboveMax)

/-! ### Both fills -/

/-- R44, R49: the burst of a completed fill is `len/4` beats numbered from 0 in order, and 32-bit lane k of beat j is the
element at position `4j + k` of the bound buffer. -/
def Obligations.BeatsLandAtTheirPositions : Prop :=
  ∀ (i : Instr) (len : Bits32) (s t : State),
    fillLen i = some len → exec i s = .next t → t.halt = false →
    t.burst.length = len.toNat / 4 ∧
    ∀ j, j < len.toNat / 4 → ∃ V, t.burst[j]? = some ⟨BitVec.ofNat 30 j, V⟩ ∧ j < 2 ^ 30 ∧
      ∀ k, k < 4 → Memory.readElem t.mem s.buf (4 * j + k) = some (lane k V)

/-- R121 for uniform fills, and the same for binomial fills (95_test_vectors.md section 2.9; the spec derives both): two
fills into two halves of a buffer, one after the other, leave the memory and the registers of one fill of the whole. -/
def Obligations.FillsCompose : Prop :=
  ∀ (f : Family) (len1 len2 : Bits32) (mk : Bits32 → Instr) (s t1 t2 t : State),
    (mk = filluOf f ∨ ∃ trials prob, mk = fillbOf f trials prob) →
    len1.toNat + len2.toNat < 2 ^ 32 →
    exec (mk len1) s = .next t1 → t1.halt = false →
    exec (mk len2) { t1 with buf := ⟨s.buf.base + 4 * len1.toNat, s.buf.cap - len1.toNat⟩ } = .next t2 →
    t2.halt = false →
    exec (mk (len1 + len2)) s = .next t → t.halt = false →
    t.mem = t2.mem ∧ t.gen = t2.gen

/-- R121, R179 "Vector-width invariance": uniform fills of two lengths from one state agree on every position both write. -/
def Obligations.UniformFillPrefixIgnoresLength : Prop :=
  ∀ (f : Family) (len1 len2 : Bits32) (s t1 t2 : State),
    exec (filluOf f len1) s = .next t1 → t1.halt = false →
    exec (filluOf f len2) s = .next t2 → t2.halt = false →
    ∀ pos, pos < len1.toNat → pos < len2.toNat →
      Memory.readElem t1.mem s.buf pos = Memory.readElem t2.mem s.buf pos

/-- R122, R133 (which the spec derives): positions with `pos mod 4` in 0, 1 depend on stream A alone and positions with
`pos mod 4` in 2, 3 on stream B alone, in every fill. -/
def Obligations.PositionsDependOnOneStream : Prop :=
  ∀ (i : Instr) (len : Bits32) (f : Family) (r q : Regs) (s u : State),
    fillLen i = some len → s.gen = some ⟨f, r⟩ → u.gen = some ⟨f, q⟩ → u.buf = s.buf →
    ∀ t v, exec i s = .next t → t.halt = false → exec i u = .next v → v.halt = false →
    ∀ pos, pos < len.toNat →
      (pos % 4 < 2 ∧ streamA r = streamA q ∨ 2 ≤ pos % 4 ∧ streamB r = streamB q) →
      Memory.readElem t.mem s.buf pos = Memory.readElem v.mem s.buf pos

/-- R172 (which the spec derives): the all-zero state is never left by a draw; `ADV.f` returns 0, `FILLU.f` writes +0.0,
`FILLB.f` writes the count N when the threshold is above 0 and 0 otherwise. -/
def Obligations.ZeroStateDrawsZeroEntropy : Prop :=
  ∀ (i : Instr) (f : Family) (s t : State),
    isInit i = false → s.gen = some ⟨f, Regs.zero⟩ → exec i s = .next t → t.halt = false →
    t.gen = s.gen ∧
    (i = advOf f → t.result = some 0#128) ∧
    (∀ len, i = filluOf f len → ∀ pos, pos < len.toNat → Memory.readElem t.mem s.buf pos = some 0#32) ∧
    ∀ trials prob len, i = fillbOf f trials prob len → ∀ pos, pos < len.toNat →
      Memory.readElem t.mem s.buf pos = some (if 0 < thresh prob then cnt2f trials.toNat else 0#32)

/-- R45: little-endian; an element covers the four bytes from `4*pos` on, its bits `8i+7:8i` at byte i, and no byte
outside them is touched. -/
def Obligations.ElementsAreLittleEndian : Prop :=
  ∀ (b : Buffer) (pos : Nat) (v : Bits32) (m : List Host.Cell),
    (∀ i, i < 4 → Memory.read (Memory.bufWrite b pos v m) (b.base + (4 * pos + i)) = some (v.extractLsb' (8 * i) 8)) ∧
    (∀ a, (a < b.base + 4 * pos ∨ b.base + 4 * pos + 4 ≤ a) →
      Memory.read (Memory.bufWrite b pos v m) a = Memory.read m a) ∧
    Memory.readElem (Memory.bufWrite b pos v m) b pos = some v

/-! ### Faults -/

/-- R143: every draw of family f faults when `FAM` is not 1 + f, initialised by the other family or not at all; `INIT.f`
never does. -/
def Obligations.DrawsFaultOnFamilyMismatch : Prop :=
  ∀ (i : Instr) (s : State),
    (isInit i = false → s.fam ≠ famCode (family i) →
      exec i s = .next (faultState .familyMismatch (encode i) s)) ∧
    (isInit i = true → ∃ t, exec i s = .next t ∧ t.halt = s.halt ∧ t.cause = s.cause)

/-- R144: a fill whose length is 0 or no multiple of 4 faults, once the family is right. -/
def Obligations.FillsFaultOnBadLength : Prop :=
  ∀ (i : Instr) (len : Bits32) (s : State),
    fillLen i = some len → s.fam = famCode (family i) → (len = 0#32 ∨ len.toNat % 4 ≠ 0) →
    exec i s = .next (faultState .badLength (encode i) s)

/-- R145: a binomial fill with N < 0 faults, once family and length are right. -/
def Obligations.BinomialFillFaultsOnNegativeTrials : Prop :=
  ∀ (f : Family) (trials prob len : Bits32) (s : State),
    s.fam = famCode f → lengthWf len = true → trials.toInt < 0 →
    exec (fillbOf f trials prob len) s = .next (faultState .badTrials (encode (fillbOf f trials prob len)) s)

/-- R146: a binomial fill whose probability is a NaN, an infinity, negative and not zero, or above 1 faults, once family,
length and trial count are right. -/
def Obligations.BinomialFillFaultsOnBadProbability : Prop :=
  ∀ (f : Family) (trials prob len : Bits32) (s : State),
    s.fam = famCode f → lengthWf len = true → 0 ≤ trials.toInt →
    (f32Finite prob = false ∨ f32 prob < 0 ∨ 1 < f32 prob) →
    exec (fillbOf f trials prob len) s = .next (faultState .badProb (encode (fillbOf f trials prob len)) s)

/-- R149: of the conditions that hold for a descriptor the first in the list is the one reported, and only that one. -/
def Obligations.FirstCauseIsReported : Prop :=
  ∀ (s : State) (d : Bits128) (b : Buffer) (rest : List HostInput) (c : Cause),
    s.halt = false → s.inputs = .command d b :: rest → firstCause s d = some c →
    step s = .next (faultState c d (acceptCommand b rest s))

/-- A descriptor for which no condition of R142 to R146 holds is a command, and it completes without a fault when its
buffer is long enough. That it is refused when the buffer is too short is the model's choice (R43; log entry 8), and so is
that a binomial fill of more than 2^24 trials completes (R131, U6; log entry 6). -/
def Obligations.DescriptorsWithoutCauseComplete : Prop :=
  ∀ (s : State) (d : Bits128) (b : Buffer) (rest : List HostInput),
    s.halt = false → s.inputs = .command d b :: rest → firstCause s d = none →
    ∃ i, decode d = .ok i ∧
      (bufferHolds b i → ∃ t, step s = .next t ∧ t.halt = false ∧ t.done = true ∧ t.cpc = s.cpc + 1) ∧
      (¬ bufferHolds b i → step s = .refused .shortBuffer)

/-- R147, R54: a step that halts the block writes HALT, CAUSE and FCMD and nothing else. The descriptor that faulted is in
FCMD, STATUS shows the cause with the family as it was, the generator and all of memory are as before, nothing is on a
port, and the command is not counted. -/
def Obligations.FaultEntryWritesThreeRegisters : Prop :=
  ∀ s t : State, s.halt = false → step s = .next t → t.halt = true →
    ∃ d b rest, s.inputs = .command d b :: rest ∧
      t.fcmd = d ∧ t.cause ≠ .noFault ∧ t.status.extractLsb' 4 4 = t.cause.code ∧ t.status.extractLsb' 1 1 = 1#1 ∧
      t.status.extractLsb' 2 2 = s.fam ∧ t.gen = s.gen ∧ t.mem = s.mem ∧ t.result = none ∧ t.burst = [] ∧
      t.done = false ∧ t.inputs = rest ∧ t.cpc = s.cpc

/-- R148: a halted block accepts no command and has no step; reset is the only way out, and it discards the generator
state. -/
def Obligations.HaltedBlockLeavesOnlyByReset : Prop :=
  ∀ s : State, s.halt = true →
    ((s.inputs = [] ∨ ∃ d b rest, s.inputs = .command d b :: rest) → step s = .fault .halted) ∧
    ∀ t, step s = .next t →
      ((∃ rest, s.inputs = .reset :: rest) ∨ ∃ d b k l rest, s.inputs = .commandCut d b k l :: rest) ∧
      t.halt = false ∧ t.gen = none ∧ t.status = 0#32 ∧ t.fcmd = 0#128 ∧ t.mem = s.mem

/-- The instruction's own effect, for all eight commands: a well-formed command whose family matches (or that is an
`INIT`) and whose buffer holds its output completes, without a fault and without touching HALT, CAUSE or FCMD (R93, R102,
R120, R128, R151). That a binomial fill of more than 2^24 trials completes is the model's choice (R131, U6; log entry 6). -/
def Obligations.WellFormedCommandsComplete : Prop :=
  ∀ (i : Instr) (s : State),
    (isInit i = true ∨ s.fam = famCode (family i)) → i.wf = true → bufferHolds s.buf i →
    ∃ t, exec i s = .next t ∧ t.done = true ∧ t.cpc = s.cpc + 1 ∧ t.fam = famCode (family i) ∧
      t.halt = s.halt ∧ t.cause = s.cause ∧ t.fcmd = s.fcmd ∧ t.buf = s.buf ∧ t.inputs = s.inputs

/-- The only command that has no next state is a fill without a fault whose buffer is too short (R43). That this one is
refused is the model's choice (log entry 8), and so is that no binomial fill is refused for its trial count (R131, U6; log
entry 6). -/
def Obligations.OnlyShortBuffersAreRefused : Prop :=
  ∀ (i : Instr) (s : State),
    (∃ t, exec i s = .next t) ∨
    (exec i s = .refused .shortBuffer ∧ ¬ bufferHolds s.buf i ∧ i.wf = true ∧ s.fam = famCode (family i))

/-! ### Registers over every step -/

/-- R28: the fields of STATUS; bits 31:8 and BUSY read 0. -/
def Obligations.StatusWordShowsItsFields : Prop :=
  ∀ s : State,
    s.status.extractLsb' 0 1 = 0#1 ∧
    (s.status.extractLsb' 1 1 = 1#1 ↔ s.halt = true) ∧
    s.status.extractLsb' 2 2 = s.fam ∧
    s.status.extractLsb' 4 4 = s.cause.code ∧
    s.status.extractLsb' 8 24 = 0#24

/-- R23: `FAM` never reads 3; `INIT.f` writes it, to 1 + f, and so does reset, to 0 (also one that cuts a command); no
other step changes it. -/
def Obligations.FamIsWrittenOnlyByInitAndReset : Prop :=
  ∀ s t : State, s.fam ≠ 3#2 ∧ (step s = .next t →
    ((∃ rest, s.inputs = .reset :: rest) ∨ (∃ d b k l rest, s.inputs = .commandCut d b k l :: rest) → t.fam = 0#2) ∧
    (s.inputs = [] → t.fam = s.fam) ∧
    ∀ d b rest, s.inputs = .command d b :: rest →
      (∀ i, decode d = .ok i → isInit i = true → t.fam = famCode (family i)) ∧
      ((∀ i, decode d = .ok i → isInit i = false) → t.fam = s.fam))

/-- R29: a command that completes changes neither `FCMD` nor HALT and CAUSE, and neither does a waiting step; fault entry
copies the faulting descriptor into `FCMD`; every reset, also one that cuts a command, clears it. -/
def Obligations.FcmdIsWrittenOnlyByFaultAndReset : Prop :=
  ∀ s t : State, step s = .next t →
    ((∃ rest, s.inputs = .reset :: rest) ∨ (∃ d b k l rest, s.inputs = .commandCut d b k l :: rest) →
      t.fcmd = 0#128 ∧ t.halt = false ∧ t.cause = .noFault) ∧
    (s.inputs = [] → t.fcmd = s.fcmd ∧ t.halt = s.halt ∧ t.cause = s.cause) ∧
    ∀ d b rest, s.inputs = .command d b :: rest →
      t.done = true ∧ t.fcmd = s.fcmd ∧ t.halt = s.halt ∧ t.cause = s.cause ∨
      t.done = false ∧ t.fcmd = d ∧ t.halt = true ∧ t.cause ≠ .noFault

/-- R33, R165: what reset leaves, in the reset state and by `rst` between commands in any state: no generator state,
STATUS and FCMD 0, nothing on the ports, the caller's buffers untouched, and the block ready. -/
def Obligations.ResetLeavesTheTableOfR33 : Prop :=
  (State.reset.gen = none ∧ State.reset.status = 0#32 ∧ State.reset.fcmd = 0#128 ∧ State.reset.result = none ∧
    State.reset.burst = [] ∧ State.reset.done = false ∧ State.reset.cmdReady = true) ∧
  ∀ (s : State) (rest : List HostInput), s.inputs = .reset :: rest →
    ∃ t, step s = .next t ∧ t.gen = none ∧ t.fam = 0#2 ∧ t.s0 = none ∧ t.s1 = none ∧ t.status = 0#32 ∧
      t.fcmd = 0#128 ∧ t.result = none ∧ t.burst = [] ∧ t.done = false ∧ t.mem = s.mem ∧ t.inputs = rest ∧
      t.cmdReady = true

/-- R165 with R33, R47 and R49: `rst` while any command runs in a block that is not halted abandons it. The block is in the
reset state, whatever the command was. Of a fill that raises no fault exactly the elements that had landed stay in the
buffer, each with the value the whole fill owes to its position; an `INIT`, an `ADV` and a descriptor that faults leave
memory as it was. The form of the cut, the refusal of a fill whose buffer is too short and counts above 2^24 are the model's
choices (log entries 13, 8 and 6). -/
def Obligations.ResetKeepsWhatACutFillWrote : Prop :=
  ∀ (s : State) (d : Bits128) (b : Buffer) (k : Nat) (landed : BitVec 4) (rest : List HostInput),
    s.halt = false → s.inputs = .commandCut d b k landed :: rest →
    (firstCause s d = none → ∀ i, decode d = .ok i → ¬ bufferHolds b i → step s = .refused .shortBuffer) ∧
    ((firstCause s d = none → ∀ i, decode d = .ok i → bufferHolds b i) →
      ∃ t, step s = .next t ∧ t.gen = none ∧ t.status = 0#32 ∧ t.fcmd = 0#128 ∧ t.result = none ∧ t.burst = [] ∧
        t.done = false ∧ t.inputs = rest ∧
        (∀ c, firstCause s d = some c → t.mem = s.mem) ∧
        (∀ i, decode d = .ok i → fillLen i = none → t.mem = s.mem) ∧
        (∀ f r len, s.gen = some ⟨f, r⟩ → decode d = .ok (filluOf f len) → firstCause s d = none →
          ∀ pos, pos < len.toNat → hadLanded k landed pos →
            Memory.readElem t.mem b pos = some (uniformElem cfg f r pos)) ∧
        (∀ f r trials prob len, s.gen = some ⟨f, r⟩ → decode d = .ok (fillbOf f trials prob len) →
          firstCause s d = none → ∀ pos, pos < len.toNat → hadLanded k landed pos →
            Memory.readElem t.mem b pos = some (cnt2f (successes cfg f trials.toNat (thresh prob) r pos))) ∧
        ∀ i len, decode d = .ok i → fillLen i = some len → ∀ a,
          (∀ pos j, pos < len.toNat → hadLanded k landed pos → j < 4 → a ≠ b.base + (4 * pos + j)) →
          Memory.read t.mem a = Memory.read s.mem a)

/-- R41: the block never reads memory. The earlier contents of the buffers influence neither what the host is shown on any
port, nor any register, nor whether a step exists, nor what is written: from two memories a step leaves at each address
the same byte, or in both the byte that was there, so bytes that were equal stay equal. -/
def Obligations.MemoryContentsInfluenceNothing : Prop :=
  ∀ (s : State) (m : List Host.Cell),
    (∀ n, outputs State.ports n { s with mem := m } = outputs State.ports n s) ∧
    ∀ t, step s = .next t → ∃ m', step { s with mem := m } = .next { t with mem := m' } ∧
      (∀ a, Memory.read m a = Memory.read s.mem a → Memory.read m' a = Memory.read t.mem a) ∧
      ∀ a, Memory.read m' a = Memory.read t.mem a ∨
        Memory.read m' a = Memory.read m a ∧ Memory.read t.mem a = Memory.read s.mem a

/-! ### Invariants -/

/-- The reset state meets the three invariants (R33). -/
def Obligations.ResetMeetsTheInvariants : Prop :=
  State.reset.Coherent ∧ State.reset.MemoryCanonical ∧ State.reset.StreamsOffset cfg

/-- R28, R29, R30: every step keeps HALT, CAUSE and FCMD in agreement (CAUSE and FCMD are 0 while HALT is 0, a fault has a
cause). That it also keeps the ports empty unless a command has just completed rests on the model's choice of when a port
is cleared (log entry 11). -/
def Obligations.EveryStepKeepsStatusCoherent : Prop :=
  ∀ s t : State, s.Coherent → step s = .next t → t.Coherent

/-- The memory keeps its canonical form over every step, a cut fill's too. -/
def Obligations.EveryStepKeepsMemoryCanonical : Prop :=
  ∀ s t : State, s.MemoryCanonical → step s = .next t → t.MemoryCanonical

/-- R25, "the load-bearing correctness property of the whole design": every step keeps stream B at the jump distance from
stream A. The exact form is the spec's own inference. -/
def Obligations.EveryStepKeepsStreamsOffset : Prop :=
  ∀ s t : State, s.StreamsOffset cfg → step s = .next t → t.StreamsOffset cfg

/-- R156 as far as one block shows it, and R42: a step writes memory only inside the buffer the host bound to it. -/
def Obligations.StepsWriteOnlyTheBoundBuffer : Prop :=
  ∀ s t : State, step s = .next t → ∀ a,
    (∀ d b rest, s.inputs = .command d b :: rest → ¬ inBuffer b (d.extractLsb' 32 32).toNat a) →
    (∀ d b k l rest, s.inputs = .commandCut d b k l :: rest → ¬ inBuffer b (d.extractLsb' 32 32).toNat a) →
    Memory.read t.mem a = Memory.read s.mem a

/-- R9, R13: the reference configuration, and the one the machine runs, are well-formed, and they differ in `TRIALS_MAX`
alone (log entry 6). -/
def Obligations.MachineConfigurationIsWellFormed : Prop :=
  ref.wf = true ∧ cfg.wf = true ∧ cfg = { ref with trialsMax := 2 ^ 31 - 1 }
end

