-- ==== Sys2Proof/Laws/Bits.lean ====
section
/-! SUPPORT. Bit by bit: concatenations, words, lanes and the fields of a descriptor (R11, R12, R61). -/

namespace Sys2Proof

theorem getLsbD_packDescriptor (op : BitVec 4) (f : BitVec 1) (len : Bits32) (arg : Bits64) (i : Nat) :
    (packDescriptor op f len arg).getLsbD i =
      if i < 4 then op.getLsbD i
      else if i < 5 then f.getLsbD (i - 4)
      else if i < 32 then false
      else if i < 64 then len.getLsbD (i - 32)
      else arg.getLsbD (i - 64) := by
  have h : (packDescriptor op f len arg).getLsbD i =
      if i < 4 then op.getLsbD i else
        (if i - 4 < 1 then f.getLsbD (i - 4) else
          (if i - 4 - 1 < 27 then (0#27).getLsbD (i - 4 - 1) else
            (if i - 4 - 1 - 27 < 32 then len.getLsbD (i - 4 - 1 - 27) else arg.getLsbD (i - 4 - 1 - 27 - 32)))) := by
    refine Eq.trans BitVec.getLsbD_append ?_
    rw [BitVec.getLsbD_append, BitVec.getLsbD_append, BitVec.getLsbD_append]
  rw [h]
  split_ifs <;> first | omega | rfl | simp

theorem getLsbD_packBinomialArg (trials prob : Bits32) (i : Nat) :
    (packBinomialArg trials prob).getLsbD i = if i < 32 then trials.getLsbD i else prob.getLsbD (i - 32) := by
  exact BitVec.getLsbD_append

end Sys2Proof

namespace Sys2Proof.Machine

theorem getLsbD_joinWords (hi lo : Bits64) (i : Nat) :
    (joinWords hi lo).getLsbD i = if i < 64 then lo.getLsbD i else hi.getLsbD (i - 64) := by
  exact BitVec.getLsbD_append

theorem getLsbD_joinLanes (l3 l2 l1 l0 : Bits32) (i : Nat) :
    (joinLanes l3 l2 l1 l0).getLsbD i =
      if i < 32 then l0.getLsbD i
      else if i < 64 then l1.getLsbD (i - 32)
      else if i < 96 then l2.getLsbD (i - 64)
      else l3.getLsbD (i - 96) := by
  have h : (joinLanes l3 l2 l1 l0).getLsbD i =
      if i < 32 then l0.getLsbD i else
        (if i - 32 < 32 then l1.getLsbD (i - 32) else
          (if i - 32 - 32 < 32 then l2.getLsbD (i - 32 - 32) else l3.getLsbD (i - 32 - 32 - 32))) := by
    refine Eq.trans BitVec.getLsbD_append ?_
    rw [BitVec.getLsbD_append, BitVec.getLsbD_append]
  rw [h]
  split_ifs <;> first | omega | rfl

@[simp] theorem w0_joinWords (hi lo : Bits64) : w0 (joinWords hi lo) = lo := by
  apply BitVec.eq_of_getLsbD_eq
  intro i h
  rw [w0, BitVec.getLsbD_extractLsb', getLsbD_joinWords, if_pos (by omega)]
  simp [h]

@[simp] theorem w1_joinWords (hi lo : Bits64) : w1 (joinWords hi lo) = hi := by
  apply BitVec.eq_of_getLsbD_eq
  intro i h
  rw [w1, BitVec.getLsbD_extractLsb', getLsbD_joinWords, if_neg (by omega), Nat.add_sub_cancel_left]
  simp [h]

/-- A register is its two words (R12). -/
theorem joinWords_w1_w0 (v : Bits128) : joinWords (w1 v) (w0 v) = v := by
  apply BitVec.eq_of_getLsbD_eq
  intro i h
  rw [getLsbD_joinWords, w0, w1, BitVec.getLsbD_extractLsb', BitVec.getLsbD_extractLsb']
  by_cases h1 : i < 64
  · simp [h1]
  · simp [h1, show i - 64 < 64 by omega, show 64 + (i - 64) = i by omega]

/-- Two registers with the same words are the same. -/
theorem eq_of_words {u v : Bits128} (h0 : w0 u = w0 v) (h1 : w1 u = w1 v) : u = v := by
  rw [← joinWords_w1_w0 u, ← joinWords_w1_w0 v, h0, h1]

theorem getLsbD_lane (k i : Nat) (v : Bits128) : (lane k v).getLsbD i = (decide (i < 32) && v.getLsbD (32 * k + i)) := by
  rw [lane, BitVec.getLsbD_extractLsb']

@[simp] theorem lane0_joinLanes (l3 l2 l1 l0 : Bits32) : lane 0 (joinLanes l3 l2 l1 l0) = l0 := by
  apply BitVec.eq_of_getLsbD_eq
  intro i h
  rw [getLsbD_lane, getLsbD_joinLanes, if_pos (by omega)]
  simp [h]

@[simp] theorem lane1_joinLanes (l3 l2 l1 l0 : Bits32) : lane 1 (joinLanes l3 l2 l1 l0) = l1 := by
  apply BitVec.eq_of_getLsbD_eq
  intro i h
  rw [getLsbD_lane, getLsbD_joinLanes, if_neg (by omega), if_pos (by omega), show 32 * 1 + i - 32 = i by omega]
  simp [h]

@[simp] theorem lane2_joinLanes (l3 l2 l1 l0 : Bits32) : lane 2 (joinLanes l3 l2 l1 l0) = l2 := by
  apply BitVec.eq_of_getLsbD_eq
  intro i h
  rw [getLsbD_lane, getLsbD_joinLanes, if_neg (by omega), if_neg (by omega), if_pos (by omega),
    show 32 * 2 + i - 64 = i by omega]
  simp [h]

@[simp] theorem lane3_joinLanes (l3 l2 l1 l0 : Bits32) : lane 3 (joinLanes l3 l2 l1 l0) = l3 := by
  apply BitVec.eq_of_getLsbD_eq
  intro i h
  rw [getLsbD_lane, getLsbD_joinLanes, if_neg (by omega), if_neg (by omega), if_neg (by omega),
    show 32 * 3 + i - 96 = i by omega]
  simp [h]

/-- A lane of a lane-wise result (R14). -/
theorem lane_mapLanes (op : Bits32 → Bits32) (v : Bits128) (k : Nat) (hk : k < 4) :
    lane k (mapLanes op v) = op (lane k v) := by
  have : k = 0 ∨ k = 1 ∨ k = 2 ∨ k = 3 := by omega
  rcases this with rfl | rfl | rfl | rfl <;> simp [mapLanes]

theorem lane_lanewise32 (op : Bits32 → Bits32 → Bits32) (u v : Bits128) (k : Nat) (hk : k < 4) :
    lane k (lanewise32 op u v) = op (lane k u) (lane k v) := by
  have : k = 0 ∨ k = 1 ∨ k = 2 ∨ k = 3 := by omega
  rcases this with rfl | rfl | rfl | rfl <;> simp [lanewise32]

@[simp] theorem lane_zero (k : Nat) : lane k 0#128 = 0#32 := by simp [lane]

/-- Two values with the same lanes are the same. -/
theorem eq_of_lanes {u v : Bits128} (h : ∀ k, k < 4 → lane k u = lane k v) : u = v := by
  apply BitVec.eq_of_getLsbD_eq
  intro i hi
  have hk := congrArg (fun x => x.getLsbD (i % 32)) (h (i / 32) (by omega))
  simp only [getLsbD_lane, Nat.div_add_mod, Nat.mod_lt i (show 32 > 0 by omega), decide_true, Bool.true_and] at hk
  exact hk

@[simp] theorem w0_lanewise64 (op : Bits64 → Bits64 → Bits64) (u v : Bits128) :
    w0 (lanewise64 op u v) = op (w0 u) (w0 v) := by simp [lanewise64]

@[simp] theorem w1_lanewise64 (op : Bits64 → Bits64 → Bits64) (u v : Bits128) :
    w1 (lanewise64 op u v) = op (w1 u) (w1 v) := by simp [lanewise64]

@[simp] theorem streamA_packStreams (a b : Scalar) : streamA (packStreams a b) = a := by
  simp [streamA, packStreams]

@[simp] theorem streamB_packStreams (a b : Scalar) : streamB (packStreams a b) = b := by
  simp [streamB, packStreams]

/-- A generator state is its two streams (R21). -/
theorem packStreams_streams (r : Regs) : packStreams (streamA r) (streamB r) = r := by
  simp [packStreams, streamA, streamB, joinWords_w1_w0]

/-- Lanes 0 and 1 are the halves of word 0, lanes 2 and 3 those of word 1 (R12). -/
theorem lane_eq_of_w0 {u v : Bits128} (h : w0 u = w0 v) (k : Nat) (hk : k < 2) : lane k u = lane k v := by
  apply BitVec.eq_of_getLsbD_eq
  intro i hi
  have hb := congrArg (fun x => x.getLsbD (32 * k + i)) h
  simp only [w0, BitVec.getLsbD_extractLsb', show 32 * k + i < 64 by omega, decide_true, Bool.true_and,
    Nat.zero_add] at hb
  simp only [getLsbD_lane, hb]

theorem lane_eq_of_w1 {u v : Bits128} (h : w1 u = w1 v) (k : Nat) (hk : 2 ≤ k) (hk' : k < 4) :
    lane k u = lane k v := by
  apply BitVec.eq_of_getLsbD_eq
  intro i hi
  have hb := congrArg (fun x => x.getLsbD (32 * k + i - 64)) h
  simp only [w1, BitVec.getLsbD_extractLsb', show 32 * k + i - 64 < 64 by omega, decide_true, Bool.true_and,
    show 64 + (32 * k + i - 64) = 32 * k + i by omega] at hb
  simp only [getLsbD_lane, hb]

end Sys2Proof.Machine
end

