-- ==== Sys2Proof/Laws/Decode.lean ====
section
/-! SUPPORT. The fields of a packed descriptor, and a descriptor from its fields (R61). -/

namespace Sys2Proof

variable (op : BitVec 4) (f : BitVec 1) (len : Bits32) (arg : Bits64)

@[simp] theorem fieldOp_pack : fieldOp (packDescriptor op f len arg) = op := by
  apply BitVec.eq_of_getLsbD_eq
  intro i hi
  rw [fieldOp, BitVec.getLsbD_extractLsb', getLsbD_packDescriptor, if_pos (by omega)]
  simp [hi]

@[simp] theorem fieldF_pack : fieldF (packDescriptor op f len arg) = f := by
  apply BitVec.eq_of_getLsbD_eq
  intro i hi
  rw [fieldF, BitVec.getLsbD_extractLsb', getLsbD_packDescriptor, if_neg (by omega), if_pos (by omega),
    Nat.add_sub_cancel_left]
  simp [hi]

@[simp] theorem fieldRsv_pack : fieldRsv (packDescriptor op f len arg) = 0#27 := by
  apply BitVec.eq_of_getLsbD_eq
  intro i hi
  rw [fieldRsv, BitVec.getLsbD_extractLsb', getLsbD_packDescriptor, if_neg (by omega), if_neg (by omega),
    if_pos (by omega)]
  simp

@[simp] theorem fieldLen_pack : fieldLen (packDescriptor op f len arg) = len := by
  apply BitVec.eq_of_getLsbD_eq
  intro i hi
  rw [fieldLen, BitVec.getLsbD_extractLsb', getLsbD_packDescriptor, if_neg (by omega), if_neg (by omega),
    if_neg (by omega), if_pos (by omega), Nat.add_sub_cancel_left]
  simp [hi]

@[simp] theorem fieldArg_pack : fieldArg (packDescriptor op f len arg) = arg := by
  apply BitVec.eq_of_getLsbD_eq
  intro i hi
  rw [fieldArg, BitVec.getLsbD_extractLsb', getLsbD_packDescriptor, if_neg (by omega), if_neg (by omega),
    if_neg (by omega), if_neg (by omega), Nat.add_sub_cancel_left]
  simp [hi]

/-- `trials` = `arg[31:0]` (R61). -/
theorem fieldTrials_eq (d : Bits128) : fieldTrials d = (fieldArg d).extractLsb' 0 32 := by
  apply BitVec.eq_of_getLsbD_eq
  intro i hi
  rw [fieldTrials, fieldArg, BitVec.getLsbD_extractLsb', BitVec.getLsbD_extractLsb', BitVec.getLsbD_extractLsb']
  simp [show i < 64 by omega]

/-- `prob` = `arg[63:32]` (R61). -/
theorem fieldProb_eq (d : Bits128) : fieldProb d = (fieldArg d).extractLsb' 32 32 := by
  apply BitVec.eq_of_getLsbD_eq
  intro i hi
  rw [fieldProb, fieldArg, BitVec.getLsbD_extractLsb', BitVec.getLsbD_extractLsb', BitVec.getLsbD_extractLsb']
  simp [show 32 + i < 64 by omega, show 64 + (32 + i) = 96 + i by omega]

@[simp] theorem trials_packBinomialArg (trials prob : Bits32) : (packBinomialArg trials prob).extractLsb' 0 32 = trials := by
  apply BitVec.eq_of_getLsbD_eq
  intro i hi
  rw [BitVec.getLsbD_extractLsb', getLsbD_packBinomialArg, if_pos (by omega)]
  simp [hi]

@[simp] theorem prob_packBinomialArg (trials prob : Bits32) : (packBinomialArg trials prob).extractLsb' 32 32 = prob := by
  apply BitVec.eq_of_getLsbD_eq
  intro i hi
  rw [BitVec.getLsbD_extractLsb', getLsbD_packBinomialArg, if_neg (by omega), Nat.add_sub_cancel_left]
  simp [hi]

/-- A 64-bit argument is the packing of its halves (R61). -/
theorem packBinomialArg_halves (d : Bits128) : packBinomialArg (fieldTrials d) (fieldProb d) = fieldArg d := by
  apply BitVec.eq_of_getLsbD_eq
  intro i hi
  rw [getLsbD_packBinomialArg, fieldTrials, fieldProb, fieldArg, BitVec.getLsbD_extractLsb', BitVec.getLsbD_extractLsb',
    BitVec.getLsbD_extractLsb']
  by_cases h : i < 32
  · simp [h, hi]
  · simp [h, hi, show i - 32 < 32 by omega, show 96 + (i - 32) = 64 + i by omega]

/-- A descriptor is the packing of its fields when its reserved field is 0 (R61). -/
theorem pack_fields (d : Bits128) (h : fieldRsv d = 0#27) :
    packDescriptor (fieldOp d) (fieldF d) (fieldLen d) (fieldArg d) = d := by
  have hr : ∀ j, j < 27 → d.getLsbD (5 + j) = false := by
    intro j hj
    have := congrArg (fun v => v.getLsbD j) h
    simpa only [fieldRsv, BitVec.getLsbD_extractLsb', hj, decide_true, Bool.true_and, BitVec.getLsbD_zero] using this
  apply BitVec.eq_of_getLsbD_eq
  intro i hi
  rw [getLsbD_packDescriptor, fieldOp, fieldF, fieldLen, fieldArg, BitVec.getLsbD_extractLsb',
    BitVec.getLsbD_extractLsb', BitVec.getLsbD_extractLsb', BitVec.getLsbD_extractLsb']
  by_cases h1 : i < 4
  · simp [h1]
  by_cases h2 : i < 5
  · simp [h1, h2, show i - 4 < 1 by omega, show 4 + (i - 4) = i by omega]
  by_cases h3 : i < 32
  · have := hr (i - 5) (by omega)
    rw [show 5 + (i - 5) = i by omega] at this
    simp [h1, h2, h3, this]
  by_cases h4 : i < 64
  · simp [h1, h2, h3, h4, show i - 32 < 32 by omega, show 32 + (i - 32) = i by omega]
  · simp [h1, h2, h3, h4, show i - 64 < 64 by omega, show 64 + (i - 64) = i by omega]

end Sys2Proof
end

