-- ==== Sys2Proof/Laws/Loops.lean ====
section
/-! SUPPORT. The advances and the loops of the fills: what each loop delivers, in terms of the advance number k. -/

namespace Sys2Proof.Machine

@[simp] theorem streamA_next (c : Cfg) (f : Family) (r : Regs) : streamA (next c f r) = sstep c f (streamA r) := by
  simp [next]

@[simp] theorem streamB_next (c : Cfg) (f : Family) (r : Regs) : streamB (next c f r) = sstep c f (streamB r) := by
  simp [next]

theorem advances_zero (c : Cfg) (f : Family) (r : Regs) : advances c f 0 r = r := rfl

theorem advances_succ (c : Cfg) (f : Family) (k : Nat) (r : Regs) :
    advances c f (k + 1) r = advances c f k (next c f r) := rfl

theorem advances_succ_last (c : Cfg) (f : Family) (k : Nat) (r : Regs) :
    advances c f (k + 1) r = next c f (advances c f k r) := Function.iterate_succ_apply' _ _ _

theorem advances_add (c : Cfg) (f : Family) (k l : Nat) (r : Regs) :
    advances c f (k + l) r = advances c f k (advances c f l r) := Function.iterate_add_apply _ _ _ _

/-- Stream A of the state after k advances (R104). -/
theorem streamA_advances (c : Cfg) (f : Family) (k : Nat) (r : Regs) :
    streamA (advances c f k r) = (sstep c f)^[k] (streamA r) := by
  induction k generalizing r with
  | zero => rfl
  | succ k ih => rw [advances_succ, ih, streamA_next, Function.iterate_succ_apply]

/-- Stream B of the state after k advances (R104). -/
theorem streamB_advances (c : Cfg) (f : Family) (k : Nat) (r : Regs) :
    streamB (advances c f k r) = (sstep c f)^[k] (streamB r) := by
  induction k generalizing r with
  | zero => rfl
  | succ k ih => rw [advances_succ, ih, streamB_next, Function.iterate_succ_apply]

theorem drawEntropy_one (c : Cfg) (f : Family) (r : Regs) : drawEntropy c f r 1 = entropy (next c f r) := rfl

/-- Advance number k of a state k' advances on is advance number k' + k. -/
theorem drawEntropy_advances (c : Cfg) (f : Family) (r : Regs) (k k' : Nat) :
    drawEntropy c f (advances c f k' r) k = drawEntropy c f r (k' + k) := by
  rw [drawEntropy, drawEntropy, Nat.add_comm, advances_add]

/-! ### The uniform loop (R120) -/

theorem uniformGroups_regs (c : Cfg) (f : Family) (n : Nat) (r : Regs) :
    (uniformGroups c f n r).2 = advances c f n r := by
  induction n generalizing r with
  | zero => rfl
  | succ n ih => exact ih (next c f r)

@[simp] theorem uniformGroups_length (c : Cfg) (f : Family) (n : Nat) (r : Regs) :
    (uniformGroups c f n r).1.length = n := by
  induction n generalizing r with
  | zero => rfl
  | succ n ih => exact congrArg (· + 1) (ih (next c f r))

/-- Group j of a uniform fill is the conversion of advance j + 1 (R121). -/
theorem uniformGroups_getElem (c : Cfg) (f : Family) (n : Nat) (r : Regs) (j : Nat) (hj : j < n) :
    (uniformGroups c f n r).1[j]? = some (cvt01 c (drawEntropy c f r (j + 1))) := by
  induction n generalizing r j with
  | zero => omega
  | succ n ih =>
    cases j with
    | zero => rfl
    | succ j => exact ih (next c f r) j (by omega)

/-- Two uniform loops one after the other are one. -/
theorem uniformGroups_add (c : Cfg) (f : Family) (m n : Nat) (r : Regs) :
    (uniformGroups c f (m + n) r).1 = (uniformGroups c f m r).1 ++ (uniformGroups c f n (advances c f m r)).1 := by
  induction m generalizing r with
  | zero => simp [uniformGroups, advances_zero]
  | succ m ih =>
    rw [Nat.succ_add]
    exact congrArg (List.cons _) (ih (next c f r))

/-! ### The trial loop and the binomial loop (R128, R130) -/

theorem trialLoop_regs (c : Cfg) (f : Family) (n t : Nat) (r : Regs) (acc : Bits128) :
    (trialLoop c f n t r acc).2 = advances c f t r := by
  induction t generalizing r acc with
  | zero => rfl
  | succ t ih => exact ih (next c f r) _

/-- The counter of a lane after t trials: what it held and the successes of the trials, modulo 2^32 (R130). -/
theorem trialLoop_lane (c : Cfg) (f : Family) (n t : Nat) (r : Regs) (acc : Bits128) (k : Nat) (hk : k < 4) :
    lane k (trialLoop c f n t r acc).1 = lane k acc + BitVec.ofNat 32
      ((List.range t).countP (fun i => belowThreshold c n (lane k (drawEntropy c f r (i + 1))))) := by
  induction t generalizing r acc with
  | zero => simp [trialLoop]
  | succ t ih =>
    have hstep : trialLoop c f n (t + 1) r acc =
        trialLoop c f n t (next c f r) (lanewise32 (· + ·) acc (mapLanes (trialMask c n) (entropy (next c f r)))) := rfl
    have hshift : ∀ i, drawEntropy c f (next c f r) (i + 1) = drawEntropy c f r (i + 1 + 1) := fun i => rfl
    rw [hstep, ih, lane_lanewise32 _ _ _ _ hk, lane_mapLanes _ _ _ hk, List.range_succ_eq_map, List.countP_cons,
      List.countP_map]
    simp only [hshift, Nat.zero_add, drawEntropy_one, Function.comp_def, trialMask, BitVec.ofNat_add, add_assoc]
    rw [add_comm (BitVec.ofNat 32 _)]
    split <;> rfl

theorem binomialGroups_regs (c : Cfg) (f : Family) (N n g : Nat) (r : Regs) :
    (binomialGroups c f N n g r).2 = advances c f (N * g) r := by
  induction g generalizing r with
  | zero => rfl
  | succ g ih =>
    have h : (binomialGroups c f N n (g + 1) r).2 = (binomialGroups c f N n g (trialLoop c f n N r 0#128).2).2 := rfl
    rw [h, ih, trialLoop_regs, ← advances_add, Nat.mul_succ]

@[simp] theorem binomialGroups_length (c : Cfg) (f : Family) (N n g : Nat) (r : Regs) :
    (binomialGroups c f N n g r).1.length = g := by
  induction g generalizing r with
  | zero => rfl
  | succ g ih => exact congrArg (· + 1) (ih _)

/-- Group j of a binomial fill counts the trials of the advances from `N*j` on (R128). -/
theorem binomialGroups_getElem (c : Cfg) (f : Family) (N n g : Nat) (r : Regs) (j : Nat) (hj : j < g) :
    (binomialGroups c f N n g r).1[j]? =
      some (mapLanes countElem (trialLoop c f n N (advances c f (N * j) r) 0#128).1) := by
  induction g generalizing r j with
  | zero => omega
  | succ g ih =>
    cases j with
    | zero => rfl
    | succ j =>
      have h : (binomialGroups c f N n (g + 1) r).1[j + 1]? =
          (binomialGroups c f N n g (trialLoop c f n N r 0#128).2).1[j]? := rfl
      rw [h, ih _ _ (by omega), trialLoop_regs, ← advances_add, Nat.mul_succ]

/-- Two binomial loops one after the other are one. -/
theorem binomialGroups_add (c : Cfg) (f : Family) (N n g h : Nat) (r : Regs) :
    (binomialGroups c f N n (g + h) r).1 =
      (binomialGroups c f N n g r).1 ++ (binomialGroups c f N n h (advances c f (N * g) r)).1 := by
  induction g generalizing r with
  | zero => simp [binomialGroups, advances_zero]
  | succ g ih =>
    rw [Nat.succ_add]
    have hr : advances c f (N * (g + 1)) r = advances c f (N * g) (trialLoop c f n N r 0#128).2 := by
      rw [trialLoop_regs, ← advances_add, Nat.mul_succ]
    rw [hr]
    exact congrArg (List.cons _) (ih (trialLoop c f n N r 0#128).2)

/-! ### The burst on the output port (R44) -/

@[simp] theorem numberBeats_length (j : Nat) (Vs : List Bits128) : (numberBeats j Vs).length = Vs.length := by
  induction Vs generalizing j with
  | nil => rfl
  | cons V Vs ih => exact congrArg (· + 1) (ih (j + 1))

theorem numberBeats_getElem (j : Nat) (Vs : List Bits128) (i : Nat) :
    (numberBeats j Vs)[i]? = (Vs[i]?).map (fun V => ⟨BitVec.ofNat 30 (j + i), V⟩) := by
  induction Vs generalizing j i with
  | nil => simp [numberBeats]
  | cons V Vs ih =>
    cases i with
    | zero => simp [numberBeats]
    | succ i => simp [numberBeats, ih, Nat.add_assoc, Nat.add_comm 1 i]

@[simp] theorem numberBeats_data (j : Nat) (Vs : List Bits128) : (numberBeats j Vs).map (·.data) = Vs := by
  induction Vs generalizing j with
  | nil => rfl
  | cons V Vs ih => exact congrArg (List.cons V) (ih (j + 1))

/-! ### Linearity (R85) -/

theorem Scalar.xor_zero (x : Scalar) : x.xor Scalar.zero = x := by
  cases x; simp [Scalar.xor, Scalar.zero]

theorem Scalar.zero_xor (x : Scalar) : Scalar.zero.xor x = x := by
  cases x; simp [Scalar.xor, Scalar.zero]

theorem Scalar.xor_assoc (x y z : Scalar) : (x.xor y).xor z = x.xor (y.xor z) := by
  simp [Scalar.xor, BitVec.xor_assoc]

theorem Scalar.xor_comm (x y : Scalar) : x.xor y = y.xor x := by
  simp [Scalar.xor, BitVec.xor_comm]

@[simp] theorem Scalar.xor_self (x : Scalar) : x.xor x = Scalar.zero := by
  simp [Scalar.xor, Scalar.zero]

/-- A rotation is linear. -/
theorem rotl64_xor (x y : Bits64) (k : Nat) : rotl64 (x ^^^ y) k = rotl64 x k ^^^ rotl64 y k := by
  apply BitVec.eq_of_getLsbD_eq
  intro i hi
  simp only [rotl64, BitVec.getLsbD_or, BitVec.getLsbD_shiftLeft, BitVec.getLsbD_ushiftRight, BitVec.getLsbD_xor, hi,
    decide_true, Bool.true_and]
  by_cases h : i < k
  · simp [h]
  · simp [h, show 64 ≤ 64 - k + i by omega]

end Sys2Proof.Machine
end

