-- ==== Sys2Proof/Laws/State.lean ====
section
/-! SUPPORT. One lemma per field per update of the state, and the views of the state that depend on one field only. -/

namespace Sys2Proof.Machine

@[simp] theorem raiseFault_gen (k : Cause) (d : Bits128) (s : State) : (raiseFault k d s).gen = s.gen := rfl
@[simp] theorem raiseFault_halt (k : Cause) (d : Bits128) (s : State) : (raiseFault k d s).halt = true := rfl
@[simp] theorem raiseFault_cause (k : Cause) (d : Bits128) (s : State) : (raiseFault k d s).cause = k := rfl
@[simp] theorem raiseFault_fcmd (k : Cause) (d : Bits128) (s : State) : (raiseFault k d s).fcmd = d := rfl
@[simp] theorem raiseFault_result (k : Cause) (d : Bits128) (s : State) : (raiseFault k d s).result = s.result := rfl
@[simp] theorem raiseFault_burst (k : Cause) (d : Bits128) (s : State) : (raiseFault k d s).burst = s.burst := rfl
@[simp] theorem raiseFault_done (k : Cause) (d : Bits128) (s : State) : (raiseFault k d s).done = s.done := rfl
@[simp] theorem raiseFault_mem (k : Cause) (d : Bits128) (s : State) : (raiseFault k d s).mem = s.mem := rfl
@[simp] theorem raiseFault_buf (k : Cause) (d : Bits128) (s : State) : (raiseFault k d s).buf = s.buf := rfl
@[simp] theorem raiseFault_inputs (k : Cause) (d : Bits128) (s : State) : (raiseFault k d s).inputs = s.inputs := rfl
@[simp] theorem raiseFault_cpc (k : Cause) (d : Bits128) (s : State) : (raiseFault k d s).cpc = s.cpc := rfl

@[simp] theorem complete_gen (s : State) : (complete s).gen = s.gen := rfl
@[simp] theorem complete_halt (s : State) : (complete s).halt = s.halt := rfl
@[simp] theorem complete_cause (s : State) : (complete s).cause = s.cause := rfl
@[simp] theorem complete_fcmd (s : State) : (complete s).fcmd = s.fcmd := rfl
@[simp] theorem complete_result (s : State) : (complete s).result = s.result := rfl
@[simp] theorem complete_burst (s : State) : (complete s).burst = s.burst := rfl
@[simp] theorem complete_done (s : State) : (complete s).done = true := rfl
@[simp] theorem complete_mem (s : State) : (complete s).mem = s.mem := rfl
@[simp] theorem complete_buf (s : State) : (complete s).buf = s.buf := rfl
@[simp] theorem complete_inputs (s : State) : (complete s).inputs = s.inputs := rfl
@[simp] theorem complete_cpc (s : State) : (complete s).cpc = s.cpc + 1 := rfl

@[simp] theorem setGen_gen (f : Family) (r : Regs) (s : State) : (setGen f r s).gen = some ⟨f, r⟩ := rfl
@[simp] theorem setGen_halt (f : Family) (r : Regs) (s : State) : (setGen f r s).halt = s.halt := rfl
@[simp] theorem setGen_cause (f : Family) (r : Regs) (s : State) : (setGen f r s).cause = s.cause := rfl
@[simp] theorem setGen_fcmd (f : Family) (r : Regs) (s : State) : (setGen f r s).fcmd = s.fcmd := rfl
@[simp] theorem setGen_result (f : Family) (r : Regs) (s : State) : (setGen f r s).result = s.result := rfl
@[simp] theorem setGen_burst (f : Family) (r : Regs) (s : State) : (setGen f r s).burst = s.burst := rfl
@[simp] theorem setGen_done (f : Family) (r : Regs) (s : State) : (setGen f r s).done = s.done := rfl
@[simp] theorem setGen_mem (f : Family) (r : Regs) (s : State) : (setGen f r s).mem = s.mem := rfl
@[simp] theorem setGen_buf (f : Family) (r : Regs) (s : State) : (setGen f r s).buf = s.buf := rfl
@[simp] theorem setGen_inputs (f : Family) (r : Regs) (s : State) : (setGen f r s).inputs = s.inputs := rfl
@[simp] theorem setGen_cpc (f : Family) (r : Regs) (s : State) : (setGen f r s).cpc = s.cpc := rfl

@[simp] theorem deliverResult_gen (v : Bits128) (s : State) : (deliverResult v s).gen = s.gen := rfl
@[simp] theorem deliverResult_halt (v : Bits128) (s : State) : (deliverResult v s).halt = s.halt := rfl
@[simp] theorem deliverResult_cause (v : Bits128) (s : State) : (deliverResult v s).cause = s.cause := rfl
@[simp] theorem deliverResult_fcmd (v : Bits128) (s : State) : (deliverResult v s).fcmd = s.fcmd := rfl
@[simp] theorem deliverResult_result (v : Bits128) (s : State) : (deliverResult v s).result = some v := rfl
@[simp] theorem deliverResult_burst (v : Bits128) (s : State) : (deliverResult v s).burst = s.burst := rfl
@[simp] theorem deliverResult_done (v : Bits128) (s : State) : (deliverResult v s).done = s.done := rfl
@[simp] theorem deliverResult_mem (v : Bits128) (s : State) : (deliverResult v s).mem = s.mem := rfl
@[simp] theorem deliverResult_buf (v : Bits128) (s : State) : (deliverResult v s).buf = s.buf := rfl
@[simp] theorem deliverResult_inputs (v : Bits128) (s : State) : (deliverResult v s).inputs = s.inputs := rfl
@[simp] theorem deliverResult_cpc (v : Bits128) (s : State) : (deliverResult v s).cpc = s.cpc := rfl

@[simp] theorem deliverBurst_gen (Vs : List Bits128) (s : State) : (deliverBurst Vs s).gen = s.gen := rfl
@[simp] theorem deliverBurst_halt (Vs : List Bits128) (s : State) : (deliverBurst Vs s).halt = s.halt := rfl
@[simp] theorem deliverBurst_cause (Vs : List Bits128) (s : State) : (deliverBurst Vs s).cause = s.cause := rfl
@[simp] theorem deliverBurst_fcmd (Vs : List Bits128) (s : State) : (deliverBurst Vs s).fcmd = s.fcmd := rfl
@[simp] theorem deliverBurst_result (Vs : List Bits128) (s : State) : (deliverBurst Vs s).result = s.result := rfl
@[simp] theorem deliverBurst_burst (Vs : List Bits128) (s : State) : (deliverBurst Vs s).burst = numberBeats 0 Vs := rfl
@[simp] theorem deliverBurst_done (Vs : List Bits128) (s : State) : (deliverBurst Vs s).done = s.done := rfl
@[simp] theorem deliverBurst_mem (Vs : List Bits128) (s : State) : (deliverBurst Vs s).mem = Memory.storeBurst s.buf 0 Vs s.mem := rfl
@[simp] theorem deliverBurst_buf (Vs : List Bits128) (s : State) : (deliverBurst Vs s).buf = s.buf := rfl
@[simp] theorem deliverBurst_inputs (Vs : List Bits128) (s : State) : (deliverBurst Vs s).inputs = s.inputs := rfl
@[simp] theorem deliverBurst_cpc (Vs : List Bits128) (s : State) : (deliverBurst Vs s).cpc = s.cpc := rfl

@[simp] theorem acceptCommand_gen (b : Buffer) (rest : List HostInput) (s : State) : (acceptCommand b rest s).gen = s.gen := rfl
@[simp] theorem acceptCommand_halt (b : Buffer) (rest : List HostInput) (s : State) : (acceptCommand b rest s).halt = s.halt := rfl
@[simp] theorem acceptCommand_cause (b : Buffer) (rest : List HostInput) (s : State) : (acceptCommand b rest s).cause = s.cause := rfl
@[simp] theorem acceptCommand_fcmd (b : Buffer) (rest : List HostInput) (s : State) : (acceptCommand b rest s).fcmd = s.fcmd := rfl
@[simp] theorem acceptCommand_result (b : Buffer) (rest : List HostInput) (s : State) : (acceptCommand b rest s).result = none := rfl
@[simp] theorem acceptCommand_burst (b : Buffer) (rest : List HostInput) (s : State) : (acceptCommand b rest s).burst = [] := rfl
@[simp] theorem acceptCommand_done (b : Buffer) (rest : List HostInput) (s : State) : (acceptCommand b rest s).done = false := rfl
@[simp] theorem acceptCommand_mem (b : Buffer) (rest : List HostInput) (s : State) : (acceptCommand b rest s).mem = s.mem := rfl
@[simp] theorem acceptCommand_buf (b : Buffer) (rest : List HostInput) (s : State) : (acceptCommand b rest s).buf = b := rfl
@[simp] theorem acceptCommand_inputs (b : Buffer) (rest : List HostInput) (s : State) : (acceptCommand b rest s).inputs = rest := rfl
@[simp] theorem acceptCommand_cpc (b : Buffer) (rest : List HostInput) (s : State) : (acceptCommand b rest s).cpc = s.cpc := rfl

@[simp] theorem resetBlock_gen (rest : List HostInput) (s : State) : (resetBlock rest s).gen = none := rfl
@[simp] theorem resetBlock_halt (rest : List HostInput) (s : State) : (resetBlock rest s).halt = false := rfl
@[simp] theorem resetBlock_cause (rest : List HostInput) (s : State) : (resetBlock rest s).cause = .noFault := rfl
@[simp] theorem resetBlock_fcmd (rest : List HostInput) (s : State) : (resetBlock rest s).fcmd = 0 := rfl
@[simp] theorem resetBlock_result (rest : List HostInput) (s : State) : (resetBlock rest s).result = none := rfl
@[simp] theorem resetBlock_burst (rest : List HostInput) (s : State) : (resetBlock rest s).burst = [] := rfl
@[simp] theorem resetBlock_done (rest : List HostInput) (s : State) : (resetBlock rest s).done = false := rfl
@[simp] theorem resetBlock_mem (rest : List HostInput) (s : State) : (resetBlock rest s).mem = s.mem := rfl
@[simp] theorem resetBlock_buf (rest : List HostInput) (s : State) : (resetBlock rest s).buf = ⟨0, 0⟩ := rfl
@[simp] theorem resetBlock_inputs (rest : List HostInput) (s : State) : (resetBlock rest s).inputs = rest := rfl
@[simp] theorem resetBlock_cpc (rest : List HostInput) (s : State) : (resetBlock rest s).cpc = s.cpc := rfl

/-! `FAM` and `cmd_ready` under the updates. -/

theorem fam_of_gen (s t : State) (h : t.gen = s.gen) : t.fam = s.fam := by
  simp only [State.fam, h]

@[simp] theorem fam_gen_none (s : State) (h : s.gen = none) : s.fam = 0#2 := by
  simp only [State.fam, h]

theorem fam_gen_some (s : State) (g : GenState) (h : s.gen = some g) : s.fam = famCode g.family := by
  simp only [State.fam, h]

@[simp] theorem setGen_fam (f : Family) (r : Regs) (s : State) : (setGen f r s).fam = famCode f := rfl

@[simp] theorem resetBlock_fam (rest : List HostInput) (s : State) : (resetBlock rest s).fam = 0#2 := rfl

/-- A block with `FAM` 0 that never faulted shows STATUS 0 (R33). -/
theorem status_eq_zero (s : State) (hf : s.fam = 0#2) (hh : s.halt = false) (hc : s.cause = .noFault) :
    s.status = 0#32 := by
  rw [State.status, State.busy, hf, hh, hc]
  decide

theorem cmdReady_iff (s : State) : s.cmdReady = true ↔ s.halt = false := by
  simp [State.cmdReady, State.busy]

theorem cmdReady_eq_not_halt (s : State) : s.cmdReady = !s.halt := by
  simp [State.cmdReady, State.busy]

theorem famCode_ne_zero (f : Family) : famCode f ≠ 0#2 := by
  cases f <;> decide

theorem famCode_injective (f g : Family) (h : famCode f = famCode g) : f = g := by
  cases f <;> cases g <;> first | rfl | exact absurd h (by decide)

/-- What `regsFor` answers, in terms of `FAM` (R143). -/
theorem regsFor_eq_some_iff (f : Family) (s : State) (r : Regs) : regsFor f s = some r ↔ s.gen = some ⟨f, r⟩ := by
  unfold regsFor
  rcases s.gen with _ | ⟨g, q⟩
  · simp
  · by_cases h : g = f <;> simp [h]

theorem regsFor_eq_none_iff (f : Family) (s : State) : regsFor f s = none ↔ s.fam ≠ famCode f := by
  unfold regsFor State.fam
  rcases s.gen with _ | ⟨g, q⟩
  · simpa using (famCode_ne_zero f).symm
  · by_cases h : g = f
    · simp [h]
    · simpa [h] using fun h' => h (famCode_injective g f h')

/-- A block whose `FAM` is 1 + f holds registers of family f. -/
theorem exists_regs_of_fam (f : Family) (s : State) (h : s.fam = famCode f) : ∃ r, s.gen = some ⟨f, r⟩ := by
  cases hr : regsFor f s with
  | none => exact absurd h ((regsFor_eq_none_iff f s).mp hr)
  | some r => exact ⟨r, (regsFor_eq_some_iff f s r).mp hr⟩

end Sys2Proof.Machine
end

