-- ==== Sys2Proof/Laws/Commands.lean ====
section
/-! SUPPORT. What each command can do, once per shared command operation, and one inversion lemma for the step. -/

namespace Sys2Proof.Machine

/-- The operand checks on patterns are the preconditions of the signatures (R126, R144, R145). -/
theorem lenOk_eq_lengthWf (len : Bits32) : lenOk len = lengthWf len := by
  simp only [lenOk, lengthWf, Nat.pos_iff_ne_zero, ne_eq, decide_not, Bool.decide_and]

theorem trialsOk_eq_trialsWf (trials : Bits32) : trialsOk trials = trialsWf trials := by
  rw [Bool.eq_iff_iff, trialsOk, trialsWf, decide_eq_true_iff, Bool.not_eq_true', BitVec.msb_eq_toInt,
    decide_eq_false_iff_not, not_lt]

/-- A length in contract is a positive multiple of 4 (R144). -/
theorem lenOk_iff (len : Bits32) : lenOk len = true ↔ 0 < len.toNat ∧ len.toNat % 4 = 0 := by
  rw [lenOk_eq_lengthWf, lengthWf, decide_eq_true_iff]

/-- A trial count in contract is below the machine's `TRIALS_MAX`. -/
theorem trials_le_trialsMax (trials : Bits32) (h : trialsOk trials = true) : trials.toNat ≤ cfg.trialsMax := by
  have hm : trials.msb = false := by simpa [trialsOk] using h
  have := BitVec.msb_eq_false_iff_two_mul_lt.mp hm
  simp only [cfg]
  omega

/-! ### Each shared command operation -/

theorem initCommand_eq (c : Cfg) (f : Family) (seed : Bits64) (s : State) :
    initCommand c f seed s = .next (complete (setGen f (initRegs c f seed) s)) := rfl

theorem advCommand_mismatch (c : Cfg) (f : Family) (d : Bits128) (s : State) (h : s.fam ≠ famCode f) :
    advCommand c f d s = .next (raiseFault .familyMismatch d s) := by
  simp only [advCommand, (regsFor_eq_none_iff f s).mpr h]

theorem advCommand_of_gen (c : Cfg) (f : Family) (d : Bits128) (s : State) (r : Regs) (h : s.gen = some ⟨f, r⟩) :
    advCommand c f d s =
      .next (complete (deliverResult (entropy (next c f r)) (setGen f (next c f r) s))) := by
  simp only [advCommand, (regsFor_eq_some_iff f s r).mpr h, vadv]

theorem filluCommand_mismatch (c : Cfg) (f : Family) (d : Bits128) (len : Bits32) (s : State)
    (h : s.fam ≠ famCode f) : filluCommand c f d len s = .next (raiseFault .familyMismatch d s) := by
  simp only [filluCommand, (regsFor_eq_none_iff f s).mpr h]

theorem filluCommand_of_gen (c : Cfg) (f : Family) (d : Bits128) (len : Bits32) (s : State) (r : Regs)
    (h : s.gen = some ⟨f, r⟩) : filluCommand c f d len s =
      if lenOk len then
        if len.toNat ≤ s.buf.cap then
          .next (complete (deliverBurst (uniformGroups c f (groupCount len) r).1
            (setGen f (advances c f (groupCount len) r) s)))
        else .refused .shortBuffer
      else .next (raiseFault .badLength d s) := by
  simp only [filluCommand, (regsFor_eq_some_iff f s r).mpr h, ← uniformGroups_regs]

theorem fillbCommand_mismatch (c : Cfg) (f : Family) (d : Bits128) (trials prob len : Bits32) (s : State)
    (h : s.fam ≠ famCode f) : fillbCommand c f d trials prob len s = .next (raiseFault .familyMismatch d s) := by
  simp only [fillbCommand, (regsFor_eq_none_iff f s).mpr h]

theorem fillbCommand_of_gen (c : Cfg) (f : Family) (d : Bits128) (trials prob len : Bits32) (s : State) (r : Regs)
    (h : s.gen = some ⟨f, r⟩) : fillbCommand c f d trials prob len s =
      if lenOk len then
        if trialsOk trials then
          if probOk prob then
            if len.toNat ≤ s.buf.cap then
              if trials.toNat ≤ c.trialsMax then
                .next (complete (deliverBurst (binomialGroups c f trials.toNat (thresh prob) (groupCount len) r).1
                  (setGen f (advances c f (trials.toNat * groupCount len) r) s)))
              else .refused .trialsAboveMax
            else .refused .shortBuffer
          else .next (raiseFault .badProb d s)
        else .next (raiseFault .badTrials d s)
      else .next (raiseFault .badLength d s) := by
  simp only [fillbCommand, (regsFor_eq_some_iff f s r).mpr h, ← binomialGroups_regs c f trials.toNat (thresh prob)]

/-! ### exec, one family at a time -/

theorem exec_initOf (f : Family) (seed : Bits64) (s : State) : exec (initOf f seed) s = initCommand cfg f seed s := by
  cases f <;> rfl

theorem exec_advOf (f : Family) (s : State) : exec (advOf f) s = advCommand cfg f (encode (advOf f)) s := by
  cases f <;> rfl

theorem exec_filluOf (f : Family) (len : Bits32) (s : State) :
    exec (filluOf f len) s = filluCommand cfg f (encode (filluOf f len)) len s := by
  cases f <;> rfl

theorem exec_fillbOf (f : Family) (trials prob len : Bits32) (s : State) : exec (fillbOf f trials prob len) s =
    fillbCommand cfg f (encode (fillbOf f trials prob len)) trials prob len s := by
  cases f <;> rfl

/-- Every command is one of the four in one of the two families (R63). -/
theorem instr_cases (i : Instr) :
    (∃ f seed, i = initOf f seed) ∨ (∃ f, i = advOf f) ∨ (∃ f len, i = filluOf f len) ∨
    (∃ f trials prob len, i = fillbOf f trials prob len) := by
  cases i with
  | initRsx seed => exact .inl ⟨.rsx, seed, rfl⟩
  | initSxa seed => exact .inl ⟨.sxa, seed, rfl⟩
  | advRsx => exact .inr (.inl ⟨.rsx, rfl⟩)
  | advSxa => exact .inr (.inl ⟨.sxa, rfl⟩)
  | filluRsx len => exact .inr (.inr (.inl ⟨.rsx, len, rfl⟩))
  | filluSxa len => exact .inr (.inr (.inl ⟨.sxa, len, rfl⟩))
  | fillbRsx trials prob len => exact .inr (.inr (.inr ⟨.rsx, trials, prob, len, rfl⟩))
  | fillbSxa trials prob len => exact .inr (.inr (.inr ⟨.sxa, trials, prob, len, rfl⟩))

/-! ### The views of a command, one family at a time -/

@[simp] theorem family_initOf (f : Family) (seed : Bits64) : family (initOf f seed) = f := by cases f <;> rfl
@[simp] theorem family_advOf (f : Family) : family (advOf f) = f := by cases f <;> rfl
@[simp] theorem family_filluOf (f : Family) (len : Bits32) : family (filluOf f len) = f := by cases f <;> rfl
@[simp] theorem family_fillbOf (f : Family) (trials prob len : Bits32) : family (fillbOf f trials prob len) = f := by cases f <;> rfl

@[simp] theorem isInit_initOf (f : Family) (seed : Bits64) : isInit (initOf f seed) = true := by cases f <;> rfl
@[simp] theorem isInit_advOf (f : Family) : isInit (advOf f) = false := by cases f <;> rfl
@[simp] theorem isInit_filluOf (f : Family) (len : Bits32) : isInit (filluOf f len) = false := by cases f <;> rfl
@[simp] theorem isInit_fillbOf (f : Family) (trials prob len : Bits32) : isInit (fillbOf f trials prob len) = false := by cases f <;> rfl

@[simp] theorem fillLen_initOf (f : Family) (seed : Bits64) : fillLen (initOf f seed) = none := by cases f <;> rfl
@[simp] theorem fillLen_advOf (f : Family) : fillLen (advOf f) = none := by cases f <;> rfl
@[simp] theorem fillLen_filluOf (f : Family) (len : Bits32) : fillLen (filluOf f len) = some len := by cases f <;> rfl
@[simp] theorem fillLen_fillbOf (f : Family) (trials prob len : Bits32) : fillLen (fillbOf f trials prob len) = some len := by cases f <;> rfl

@[simp] theorem binomialOperands_initOf (f : Family) (seed : Bits64) : binomialOperands (initOf f seed) = none := by cases f <;> rfl
@[simp] theorem binomialOperands_advOf (f : Family) : binomialOperands (advOf f) = none := by cases f <;> rfl
@[simp] theorem binomialOperands_filluOf (f : Family) (len : Bits32) : binomialOperands (filluOf f len) = none := by cases f <;> rfl
@[simp] theorem binomialOperands_fillbOf (f : Family) (trials prob len : Bits32) : binomialOperands (fillbOf f trials prob len) = some (trials, prob) := by cases f <;> rfl

@[simp] theorem wf_initOf (f : Family) (seed : Bits64) : (initOf f seed).wf = true := by cases f <;> rfl
@[simp] theorem wf_advOf (f : Family) : (advOf f).wf = true := by cases f <;> rfl
@[simp] theorem wf_filluOf (f : Family) (len : Bits32) : (filluOf f len).wf = lengthWf len := by cases f <;> rfl
@[simp] theorem wf_fillbOf (f : Family) (trials prob len : Bits32) : (fillbOf f trials prob len).wf = (lengthWf len && trialsWf trials && probWf prob) := by cases f <;> rfl

/-! ### Inversion -/

/-- What a completed command leaves: the registers it writes, by command. -/
inductive Effect (s : State) : Instr → State → Prop where
  /-- `INIT.f` (R93). -/
  | init (f : Family) (seed : Bits64) :
    Effect s (initOf f seed) (complete (setGen f (initRegs cfg f seed) s))
  /-- `ADV.f` (R102). -/
  | adv (f : Family) (r : Regs) (hr : s.gen = some ⟨f, r⟩) :
    Effect s (advOf f) (complete (deliverResult (entropy (next cfg f r)) (setGen f (next cfg f r) s)))
  /-- `FILLU.f` (R120). -/
  | fillu (f : Family) (r : Regs) (len : Bits32) (hr : s.gen = some ⟨f, r⟩) (hl : lenOk len = true)
    (hc : len.toNat ≤ s.buf.cap) :
    Effect s (filluOf f len) (complete (deliverBurst (uniformGroups cfg f (groupCount len) r).1
      (setGen f (advances cfg f (groupCount len) r) s)))
  /-- `FILLB.f` (R128). -/
  | fillb (f : Family) (r : Regs) (trials prob len : Bits32) (hr : s.gen = some ⟨f, r⟩) (hl : lenOk len = true)
    (ht : trialsOk trials = true) (hp : probOk prob = true) (hc : len.toNat ≤ s.buf.cap) :
    Effect s (fillbOf f trials prob len) (complete (deliverBurst
      (binomialGroups cfg f trials.toNat (thresh prob) (groupCount len) r).1
      (setGen f (advances cfg f (trials.toNat * groupCount len) r) s)))

/-- Everything a command can do: it completes with its own effect, or it raises a fault with a cause (never
`ILLEGAL_CMD`), or it is refused for a short buffer. -/
theorem exec_cases (i : Instr) (s : State) :
    (∃ t, exec i s = .next t ∧ Effect s i t) ∨
    (∃ k, k ≠ .noFault ∧ exec i s = .next (raiseFault k (encode i) s)) ∨
    exec i s = .refused .shortBuffer := by
  have hgen : ∀ f, s.fam ≠ famCode f ∨ ∃ r, s.gen = some ⟨f, r⟩ := fun f =>
    (em (s.fam = famCode f)).elim (fun h => .inr (exists_regs_of_fam f s h)) .inl
  obtain ⟨f, seed, rfl⟩ | ⟨f, rfl⟩ | ⟨f, len, rfl⟩ | ⟨f, trials, prob, len, rfl⟩ := instr_cases i
  · exact .inl ⟨_, exec_initOf f seed s, .init f seed⟩
  · rw [exec_advOf]
    obtain h | ⟨r, hr⟩ := hgen f
    · exact .inr (.inl ⟨.familyMismatch, by decide, advCommand_mismatch _ _ _ _ h⟩)
    · exact .inl ⟨_, advCommand_of_gen _ _ _ _ r hr, .adv f r hr⟩
  · rw [exec_filluOf]
    obtain h | ⟨r, hr⟩ := hgen f
    · exact .inr (.inl ⟨.familyMismatch, by decide, filluCommand_mismatch _ _ _ _ _ h⟩)
    rw [filluCommand_of_gen _ _ _ _ _ r hr]
    by_cases hl : lenOk len = true
    · by_cases hc : len.toNat ≤ s.buf.cap
      · rw [if_pos hl, if_pos hc]
        exact .inl ⟨_, rfl, .fillu f r len hr hl hc⟩
      · rw [if_pos hl, if_neg hc]
        exact .inr (.inr rfl)
    · rw [if_neg hl]
      exact .inr (.inl ⟨.badLength, by decide, rfl⟩)
  · rw [exec_fillbOf]
    obtain h | ⟨r, hr⟩ := hgen f
    · exact .inr (.inl ⟨.familyMismatch, by decide, fillbCommand_mismatch _ _ _ _ _ _ _ h⟩)
    rw [fillbCommand_of_gen _ _ _ _ _ _ _ r hr]
    by_cases hl : lenOk len = true
    · by_cases ht : trialsOk trials = true
      · by_cases hp : probOk prob = true
        · by_cases hc : len.toNat ≤ s.buf.cap
          · rw [if_pos hl, if_pos ht, if_pos hp, if_pos hc, if_pos (trials_le_trialsMax trials ht)]
            exact .inl ⟨_, rfl, .fillb f r trials prob len hr hl ht hp hc⟩
          · rw [if_pos hl, if_pos ht, if_pos hp, if_neg hc]
            exact .inr (.inr rfl)
        · rw [if_pos hl, if_pos ht, if_neg hp]
          exact .inr (.inl ⟨.badProb, by decide, rfl⟩)
      · rw [if_pos hl, if_neg ht]
        exact .inr (.inl ⟨.badTrials, by decide, rfl⟩)
    · rw [if_neg hl]
      exact .inr (.inl ⟨.badLength, by decide, rfl⟩)

/-- Everything an accepted descriptor can do. -/
theorem runDescriptor_cases (d : Bits128) (s : State) :
    (∃ i t, decode d = .ok i ∧ runDescriptor d s = .next t ∧ Effect s i t) ∨
    (∃ k d', k ≠ .noFault ∧ runDescriptor d s = .next (raiseFault k d' s) ∧ (d' = d ∨ ∃ i, decode d = .ok i ∧ d' = encode i)) ∨
    runDescriptor d s = .refused .shortBuffer := by
  unfold runDescriptor
  cases h : decode d with
  | error e => exact .inr (.inl ⟨.illegalCmd, d, by decide, rfl, .inl rfl⟩)
  | ok i =>
    obtain ⟨t, h1, h2⟩ | ⟨k, hk, h1⟩ | h1 := exec_cases i s
    · exact .inl ⟨i, t, rfl, h1, h2⟩
    · exact .inr (.inl ⟨k, encode i, hk, h1, .inr ⟨i, rfl, rfl⟩⟩)
    · exact .inr (.inr h1)

/-- Everything a step can do when it answers a next state: the block waits, is reset, is reset while a command runs, or
runs an accepted descriptor. -/
theorem step_cases {s t : State} (h : step s = .next t) :
    (s.inputs = [] ∧ s.halt = false ∧ t = { s with result := none, burst := [], done := false }) ∨
    (∃ rest, s.inputs = .reset :: rest ∧ t = resetBlock rest s) ∨
    (∃ d b k l rest, s.inputs = .commandCut d b k l :: rest ∧
      ((s.halt = true ∧ t = resetBlock rest s) ∨
       (s.halt = false ∧ ∃ u, runDescriptor d (acceptCommand b rest s) = .next u ∧
          t = resetBlock rest { acceptCommand b rest s with
            mem := Memory.storeCut b (u.burst.map (·.data)) k l s.mem }))) ∨
    (∃ d b rest, s.inputs = .command d b :: rest ∧ s.halt = false ∧
      runDescriptor d (acceptCommand b rest s) = .next t) := by
  unfold step at h
  split at h
  · rename_i hin
    refine .inl ⟨hin, ?_⟩
    unfold idleStep at h
    split at h
    · exact ⟨(cmdReady_iff s).mp ‹_›, by simpa using h.symm⟩
    · cases h
  · rename_i rest hin
    exact .inr (.inl ⟨rest, hin, by simpa using h.symm⟩)
  · rename_i d b rest hin
    split at h
    · exact .inr (.inr (.inr ⟨d, b, rest, hin, (cmdReady_iff s).mp ‹_›, h⟩))
    · cases h
  · rename_i d b k l rest hin
    refine .inr (.inr (.inl ⟨d, b, k, l, rest, hin, ?_⟩))
    split at h
    · refine .inr ⟨(cmdReady_iff s).mp ‹_›, ?_⟩
      cases hu : runDescriptor d (acceptCommand b rest s) with
      | next u =>
        rw [hu] at h
        exact ⟨u, rfl, by simpa [cutOutcome] using h.symm⟩
      | fault r => rw [hu] at h; cases h
      | refused r => rw [hu] at h; cases h
    · rename_i hr
      refine .inl ⟨?_, by simpa using h.symm⟩
      simpa [cmdReady_eq_not_halt] using hr

end Sys2Proof.Machine
end

