-- ==== Sys2Proof/Laws/Memory.lean ====
section
/-! SUPPORT. The memory operations: reading after writing, what a write leaves alone, and the canonical form. -/

namespace Sys2Proof.Machine.Memory

/-- A read after a write. -/
theorem read_write (m : List Host.Cell) (x y : Nat) (w : Byte) :
    read (write m x w) y = if y = x then some w else read m y := by
  induction m with
  | nil => simp [write, read]
  | cons c m ih =>
    obtain ⟨a, v⟩ := c
    unfold write
    split
    · simp [read]
    · split
      · rename_i _ h; subst h; simp only [read]; split <;> rfl
      · simp only [read, ih]; split <;> split <;> simp_all

@[simp] theorem read_write_same (m : List Host.Cell) (x : Nat) (w : Byte) : read (write m x w) x = some w := by
  simp [read_write]

theorem read_write_other (m : List Host.Cell) (x y : Nat) (w : Byte) (h : y ≠ x) :
    read (write m x w) y = read m y := by
  simp [read_write, h]

/-- Every cell of a memory after a write is the new one or an old one. -/
theorem mem_write {m : List Host.Cell} {x : Nat} {w : Byte} {c : Host.Cell} (h : c ∈ write m x w) :
    c = (x, w) ∨ c ∈ m := by
  induction m with
  | nil => simpa [write] using h
  | cons d m ih =>
    obtain ⟨a, v⟩ := d
    unfold write at h
    split at h
    · simpa using h
    · split at h
      · rcases List.mem_cons.mp h with h | h
        · exact .inl h
        · exact .inr (List.mem_cons_of_mem _ h)
      · rcases List.mem_cons.mp h with h | h
        · exact .inr (h ▸ List.mem_cons_self)
        · exact (ih h).imp id (List.mem_cons_of_mem _)

/-- A write keeps the canonical form. -/
theorem wf_write {m : List Host.Cell} (x : Nat) (w : Byte) (h : wf m) : wf (write m x w) := by
  induction m with
  | nil => simp [write]
  | cons d m ih =>
    obtain ⟨a, v⟩ := d
    obtain ⟨h1, h2⟩ := List.pairwise_cons.mp h
    unfold write
    split
    · refine List.pairwise_cons.mpr ⟨fun c hc => ?_, h⟩
      rcases List.mem_cons.mp hc with rfl | hc
      · assumption
      · exact lt_trans ‹x < a› (h1 c hc)
    · split
      · rename_i _ hxa; subst hxa; exact List.pairwise_cons.mpr ⟨h1, h2⟩
      · refine List.pairwise_cons.mpr ⟨fun c hc => ?_, ih h2⟩
        rcases mem_write hc with rfl | hc
        · simp only; omega
        · exact h1 c hc

theorem wf_memWrite {m : List Host.Cell} (b : Buffer) (off : Nat) (v : Bits32) (h : wf m) : wf (memWrite b off v m) :=
  wf_write _ _ (wf_write _ _ (wf_write _ _ (wf_write _ _ h)))

theorem wf_bufWrite {m : List Host.Cell} (b : Buffer) (pos : Nat) (v : Bits32) (h : wf m) : wf (bufWrite b pos v m) :=
  wf_memWrite b _ v h

theorem wf_storeBeat {m : List Host.Cell} (b : Buffer) (j : Nat) (V : Bits128) (h : wf m) : wf (storeBeat b j V m) :=
  wf_bufWrite _ _ _ (wf_bufWrite _ _ _ (wf_bufWrite _ _ _ (wf_bufWrite _ _ _ h)))

theorem wf_storeBurst {m : List Host.Cell} (b : Buffer) (j : Nat) (Vs : List Bits128) (h : wf m) :
    wf (storeBurst b j Vs m) := by
  induction Vs generalizing j m with
  | nil => exact h
  | cons V Vs ih => exact ih (j + 1) (wf_storeBeat b j V h)

theorem wf_storeIfLanded {m : List Host.Cell} (b : Buffer) (j k : Nat) (V : Bits128) (landed : BitVec 4) (h : wf m) :
    wf (storeIfLanded b j k V landed m) := by
  unfold storeIfLanded; split
  · exact wf_bufWrite _ _ _ h
  · exact h

theorem wf_storeCut {m : List Host.Cell} (b : Buffer) (Vs : List Bits128) (beats : Nat) (landed : BitVec 4) (h : wf m) :
    wf (storeCut b Vs beats landed m) := by
  have hb := wf_storeBurst b 0 (Vs.take beats) h
  unfold storeCut
  split
  · exact hb
  · exact wf_storeIfLanded _ _ _ _ _ (wf_storeIfLanded _ _ _ _ _ (wf_storeIfLanded _ _ _ _ _
      (wf_storeIfLanded _ _ _ _ _ hb)))

/-- The reset memory is canonical. -/
theorem wf_reset : wf State.reset.mem := List.Pairwise.nil

/-- What `MemWrite` changes, byte by byte (R45). -/
theorem read_memWrite (b : Buffer) (off : Nat) (v : Bits32) (m : List Host.Cell) (a : Nat) :
    read (memWrite b off v m) a =
      if a = b.base + off + 3 then some (elemByte v 3)
      else if a = b.base + off + 2 then some (elemByte v 2)
      else if a = b.base + off + 1 then some (elemByte v 1)
      else if a = b.base + off then some (elemByte v 0)
      else read m a := by
  simp only [memWrite, read_write, byteAddr, Nat.add_zero]

/-- `MemWrite` touches the four bytes of its element only (R47). -/
theorem read_memWrite_other (b : Buffer) (off : Nat) (v : Bits32) (m : List Host.Cell) (a : Nat)
    (h : a < b.base + off ∨ b.base + off + 4 ≤ a) : read (memWrite b off v m) a = read m a := by
  rw [read_memWrite, if_neg (by omega), if_neg (by omega), if_neg (by omega), if_neg (by omega)]

/-- The four bytes of an element put together again (R45). -/
theorem elemBytes_join (v : Bits32) : elemByte v 3 ++ elemByte v 2 ++ elemByte v 1 ++ elemByte v 0 = v := by
  apply BitVec.eq_of_getLsbD_eq
  intro i hi
  simp only [elemByte, BitVec.getLsbD_append, BitVec.getLsbD_extractLsb']
  by_cases h1 : i < 8
  · simp [h1]
  · by_cases h2 : i - 8 < 8
    · simp [h1, h2, show 8 + (i - 8) = i by omega]
    · by_cases h3 : i - 8 - 8 < 8
      · simp [h1, h2, h3, show 16 + (i - 8 - 8) = i by omega]
      · simp [h1, h2, h3, show i - 8 - 8 - 8 < 8 by omega, show 24 + (i - 8 - 8 - 8) = i by omega]

/-- An element reads as it was written (R45). -/
@[simp] theorem readElem_bufWrite_same (b : Buffer) (pos : Nat) (v : Bits32) (m : List Host.Cell) :
    readElem (bufWrite b pos v m) b pos = some v := by
  simp only [readElem, bufWrite, byteAddr, read_memWrite]
  simp [elemBytes_join]

/-- Two memories that agree on the bytes of an element show the same element. -/
theorem readElem_congr (m m' : List Host.Cell) (b : Buffer) (pos : Nat)
    (h : ∀ i, i < 4 → read m (byteAddr b (4 * pos) i) = read m' (byteAddr b (4 * pos) i)) :
    readElem m b pos = readElem m' b pos := by
  simp only [readElem, h 0 (by omega), h 1 (by omega), h 2 (by omega), h 3 (by omega)]

/-- Writing one element leaves the others alone. -/
theorem readElem_bufWrite_other (b : Buffer) (pos p : Nat) (v : Bits32) (m : List Host.Cell) (h : p ≠ pos) :
    readElem (bufWrite b pos v m) b p = readElem m b p := by
  apply readElem_congr
  intro i hi
  apply read_memWrite_other
  simp only [byteAddr]; omega

/-- What a beat writes, element by element (R44). -/
theorem readElem_storeBeat (b : Buffer) (j k : Nat) (V : Bits128) (m : List Host.Cell) (hk : k < 4) :
    readElem (storeBeat b j V m) b (4 * j + k) = some (lane k V) := by
  simp only [storeBeat]
  have : k = 0 ∨ k = 1 ∨ k = 2 ∨ k = 3 := by omega
  rcases this with rfl | rfl | rfl | rfl
  · rw [readElem_bufWrite_other _ _ _ _ _ (by omega), readElem_bufWrite_other _ _ _ _ _ (by omega),
      readElem_bufWrite_other _ _ _ _ _ (by omega)]
    exact readElem_bufWrite_same _ _ _ _
  · rw [readElem_bufWrite_other _ _ _ _ _ (by omega), readElem_bufWrite_other _ _ _ _ _ (by omega)]
    exact readElem_bufWrite_same _ _ _ _
  · rw [readElem_bufWrite_other _ _ _ _ _ (by omega)]
    exact readElem_bufWrite_same _ _ _ _
  · exact readElem_bufWrite_same _ _ _ _

/-- A beat touches the sixteen bytes of its group only (R46). -/
theorem read_storeBeat_other (b : Buffer) (j : Nat) (V : Bits128) (m : List Host.Cell) (a : Nat)
    (h : a < b.base + 16 * j ∨ b.base + 16 * (j + 1) ≤ a) : read (storeBeat b j V m) a = read m a := by
  simp only [storeBeat, bufWrite]
  rw [read_memWrite_other _ _ _ _ _ (by omega), read_memWrite_other _ _ _ _ _ (by omega),
    read_memWrite_other _ _ _ _ _ (by omega), read_memWrite_other _ _ _ _ _ (by omega)]

/-- A burst touches the bytes of its groups only. -/
theorem read_storeBurst_other (b : Buffer) (j : Nat) (Vs : List Bits128) (m : List Host.Cell) (a : Nat)
    (h : a < b.base + 16 * j ∨ b.base + 16 * (j + Vs.length) ≤ a) : read (storeBurst b j Vs m) a = read m a := by
  induction Vs generalizing j m with
  | nil => rfl
  | cons V Vs ih =>
    simp only [List.length_cons] at h
    rw [storeBurst, ih (j + 1) _ (by omega), read_storeBeat_other _ _ _ _ _ (by omega)]

/-- What a burst writes, element by element (R44, R49). -/
theorem readElem_storeBurst (b : Buffer) (j : Nat) (Vs : List Bits128) (m : List Host.Cell) (i k : Nat) (V : Bits128)
    (hV : Vs[i]? = some V) (hk : k < 4) : readElem (storeBurst b j Vs m) b (4 * (j + i) + k) = some (lane k V) := by
  induction Vs generalizing j m i with
  | nil => simp at hV
  | cons W Vs ih =>
    cases i with
    | zero =>
      simp only [List.getElem?_cons_zero, Option.some.injEq] at hV
      subst hV
      rw [storeBurst, readElem_congr (m' := storeBeat b j W m), Nat.add_zero, readElem_storeBeat _ _ _ _ _ hk]
      intro i hi
      apply read_storeBurst_other
      simp only [byteAddr]; omega
    | succ i =>
      rw [List.getElem?_cons_succ] at hV
      rw [storeBurst, show j + (i + 1) = j + 1 + i by omega]
      exact ih (j + 1) _ i hV

/-- Two bursts one after the other are one burst. -/
theorem storeBurst_append (b : Buffer) (j : Nat) (Us Vs : List Bits128) (m : List Host.Cell) :
    storeBurst b j (Us ++ Vs) m = storeBurst b (j + Us.length) Vs (storeBurst b j Us m) := by
  induction Us generalizing j m with
  | nil => simp [storeBurst]
  | cons U Us ih => simp only [List.cons_append, storeBurst, ih, List.length_cons]; congr 1; omega

/-- A burst may be counted from the middle of a buffer (R42). -/
theorem storeBurst_shift (base cap cap' n j : Nat) (Vs : List Bits128) (m : List Host.Cell) :
    storeBurst ⟨base + 16 * n, cap⟩ j Vs m = storeBurst ⟨base, cap'⟩ (n + j) Vs m := by
  induction Vs generalizing j m with
  | nil => rfl
  | cons V Vs ih =>
    have hw : ∀ (k : Nat) (v : Bits32) (m' : List Host.Cell),
        bufWrite ⟨base + 16 * n, cap⟩ (4 * j + k) v m' = bufWrite ⟨base, cap'⟩ (4 * (n + j) + k) v m' := by
      intro k v m'
      simp only [bufWrite, memWrite, byteAddr]
      rw [show base + 16 * n + 4 * (4 * j + k) = base + 4 * (4 * (n + j) + k) by omega]
    have h0 := hw 0
    simp only [Nat.add_zero] at h0
    simp only [storeBurst, storeBeat, hw, h0, ih (j + 1), Nat.add_assoc]

theorem read_storeIfLanded_other (b : Buffer) (j k : Nat) (V : Bits128) (landed : BitVec 4) (m : List Host.Cell) (a : Nat)
    (h : a < b.base + 4 * (4 * j + k) ∨ b.base + 4 * (4 * j + k) + 4 ≤ a) :
    read (storeIfLanded b j k V landed m) a = read m a := by
  unfold storeIfLanded
  split
  · exact read_memWrite_other _ _ _ _ _ h
  · rfl

/-- What a cut burst leaves of a burst touches the bytes of its groups only (R165). -/
theorem read_storeCut_other (b : Buffer) (Vs : List Bits128) (beats : Nat) (landed : BitVec 4) (m : List Host.Cell)
    (a : Nat) (h : a < b.base ∨ b.base + 16 * Vs.length ≤ a) : read (storeCut b Vs beats landed m) a = read m a := by
  have h1 : read (storeBurst b 0 (Vs.take beats) m) a = read m a := by
    apply read_storeBurst_other
    have := List.length_take_le' beats Vs
    omega
  unfold storeCut
  split
  · exact h1
  · rename_i V rest hdrop
    have hk : beats < Vs.length := by
      by_contra hk
      rw [List.drop_of_length_le (by omega)] at hdrop
      cases hdrop
    rw [read_storeIfLanded_other _ _ _ _ _ _ _ (by omega), read_storeIfLanded_other _ _ _ _ _ _ _ (by omega),
      read_storeIfLanded_other _ _ _ _ _ _ _ (by omega), read_storeIfLanded_other _ _ _ _ _ _ _ (by omega), h1]

/-- A store that takes nothing from the memory it writes to: at each address it leaves one byte whatever stood there, or
what stood there (R41). -/
def WritesBlindly (store : List Host.Cell → List Host.Cell) : Prop :=
  ∀ a, (∃ w, ∀ m, read (store m) a = w) ∨ ∀ m, read (store m) a = read m a

theorem writesBlindly_id : WritesBlindly (fun m => m) := fun _ => .inr fun _ => rfl

theorem WritesBlindly.comp {f g : List Host.Cell → List Host.Cell} (hf : WritesBlindly f) (hg : WritesBlindly g) :
    WritesBlindly (fun m => f (g m)) := by
  intro a
  obtain ⟨w, h⟩ | h := hf a
  · exact .inl ⟨w, fun m => h (g m)⟩
  · obtain ⟨w, h'⟩ | h' := hg a
    · exact .inl ⟨w, fun m => (h (g m)).trans (h' m)⟩
    · exact .inr fun m => (h (g m)).trans (h' m)

theorem writesBlindly_write (x : Nat) (w : Byte) : WritesBlindly (fun m => write m x w) := by
  intro a
  by_cases h : a = x
  · exact .inl ⟨some w, fun m => by rw [h, read_write_same]⟩
  · exact .inr fun m => read_write_other m x a w h

theorem writesBlindly_bufWrite (b : Buffer) (pos : Nat) (v : Bits32) : WritesBlindly (bufWrite b pos v) :=
  (writesBlindly_write _ _).comp ((writesBlindly_write _ _).comp ((writesBlindly_write _ _).comp (writesBlindly_write _ _)))

theorem writesBlindly_storeBeat (b : Buffer) (j : Nat) (V : Bits128) : WritesBlindly (storeBeat b j V) :=
  (writesBlindly_bufWrite _ _ _).comp ((writesBlindly_bufWrite _ _ _).comp
    ((writesBlindly_bufWrite _ _ _).comp (writesBlindly_bufWrite _ _ _)))

theorem writesBlindly_storeBurst (b : Buffer) (j : Nat) (Vs : List Bits128) : WritesBlindly (storeBurst b j Vs) := by
  induction Vs generalizing j with
  | nil => exact writesBlindly_id
  | cons V Vs ih => exact (ih (j + 1)).comp (writesBlindly_storeBeat b j V)

theorem writesBlindly_storeIfLanded (b : Buffer) (j k : Nat) (V : Bits128) (landed : BitVec 4) :
    WritesBlindly (storeIfLanded b j k V landed) := by
  unfold storeIfLanded
  by_cases h : landed.getLsbD k = true
  · simp only [h, if_true]; exact writesBlindly_bufWrite _ _ _
  · simp only [h]; exact writesBlindly_id

theorem writesBlindly_storeCut (b : Buffer) (Vs : List Bits128) (beats : Nat) (landed : BitVec 4) :
    WritesBlindly (storeCut b Vs beats landed) := by
  have hb := writesBlindly_storeBurst b 0 (Vs.take beats)
  unfold storeCut
  cases Vs.drop beats with
  | nil => exact hb
  | cons V _ =>
    exact (writesBlindly_storeIfLanded _ _ _ _ _).comp ((writesBlindly_storeIfLanded _ _ _ _ _).comp
      ((writesBlindly_storeIfLanded _ _ _ _ _).comp ((writesBlindly_storeIfLanded _ _ _ _ _).comp hb)))

end Sys2Proof.Machine.Memory
end

