-- ==== Sys2Proof/Laws/Fills.lean ====
section
/-! SUPPORT. What a completed fill leaves: its preconditions held, its state is the one of its command, and each element of
the buffer is the one owed to its position. -/

namespace Sys2Proof.Machine

/-- The element at a position of a burst that has landed (R44). -/
theorem readElem_burst (b : Buffer) (Vs : List Bits128) (m : List Host.Cell) (pos : Nat) (V : Bits128)
    (h : Vs[pos / 4]? = some V) : Memory.readElem (Memory.storeBurst b 0 Vs m) b pos = some (lane (pos % 4) V) := by
  have := Memory.readElem_storeBurst b 0 Vs m (pos / 4) (pos % 4) V h (by omega)
  rwa [show 4 * (0 + pos / 4) + pos % 4 = pos by omega] at this

/-- A burst into the part of a buffer from position k on is one into the buffer from beat `k/4` on. -/
theorem storeBurst_from (base cap k j : Nat) (Vs : List Bits128) (m : List Host.Cell) (hk : k % 4 = 0) :
    Memory.storeBurst ⟨base + 4 * k, cap⟩ j Vs m = Memory.storeBurst ⟨base, cap + k⟩ (k / 4 + j) Vs m := by
  rw [← Memory.storeBurst_shift base cap (cap + k) (k / 4) j, show base + 4 * k = base + 16 * (k / 4) by omega]

/-- With the machine's shift the pattern of the [1, 2) converter is a sum (R112). -/
theorem cvt12Lane_toNat (x : Bits32) : (cvt12Lane cfg x).toNat = 0x3F800000 + (mantissa cfg x).toNat := by
  have hm : (mantissa cfg x).toNat < 2 ^ 23 := by
    simp only [mantissa, cfg, ref, BitVec.toNat_ushiftRight, Nat.shiftRight_eq_div_pow]
    omega
  have h := Nat.two_pow_add_eq_or_of_lt hm 127
  simp only [cvt12Lane, onePattern, BitVec.toNat_or]
  simp at h ⊢
  omega

/-- The comparison of patterns is that of the kept bits with the threshold (R129). -/
theorem belowThreshold_iff (x : Bits32) (n : Nat) : belowThreshold cfg n x = true ↔ (mantissa cfg x).toNat < n := by
  simp [belowThreshold, thresholdPattern, cvt12Lane_toNat, onePattern]

theorem successes_le (c : Cfg) (f : Family) (N n : Nat) (r : Regs) (pos : Nat) : successes c f N n r pos ≤ N := by
  have h := List.countP_le_length (l := List.range N) (p := trialSucceeds c f N n r pos)
  rwa [List.length_range] at h

/-- A uniform fill that completes (R120). -/
theorem fillu_completed {f : Family} {len : Bits32} {s t : State} (h : exec (filluOf f len) s = .next t)
    (hh : t.halt = false) : ∃ r, s.gen = some ⟨f, r⟩ ∧ lenOk len = true ∧ len.toNat ≤ s.buf.cap ∧
      t = complete (deliverBurst (uniformGroups cfg f (groupCount len) r).1
        (setGen f (advances cfg f (groupCount len) r) s)) := by
  rw [exec_filluOf] at h
  by_cases hf : s.fam = famCode f
  · obtain ⟨r, hr⟩ := exists_regs_of_fam f s hf
    rw [filluCommand_of_gen _ _ _ _ _ r hr] at h
    split at h
    · split at h
      · cases h; exact ⟨r, hr, ‹_›, ‹_›, rfl⟩
      · cases h
    · cases h; simp at hh
  · rw [filluCommand_mismatch _ _ _ _ _ hf] at h
    cases h; simp at hh

/-- A binomial fill that completes (R128). -/
theorem fillb_completed {f : Family} {trials prob len : Bits32} {s t : State}
    (h : exec (fillbOf f trials prob len) s = .next t) (hh : t.halt = false) :
    ∃ r, s.gen = some ⟨f, r⟩ ∧ lenOk len = true ∧ trialsOk trials = true ∧ probOk prob = true ∧
      len.toNat ≤ s.buf.cap ∧
      t = complete (deliverBurst (binomialGroups cfg f trials.toNat (thresh prob) (groupCount len) r).1
        (setGen f (advances cfg f (trials.toNat * groupCount len) r) s)) := by
  rw [exec_fillbOf] at h
  by_cases hf : s.fam = famCode f
  · obtain ⟨r, hr⟩ := exists_regs_of_fam f s hf
    rw [fillbCommand_of_gen _ _ _ _ _ _ _ r hr] at h
    split at h
    · split at h
      · split at h
        · split at h
          · split at h
            · cases h; exact ⟨r, hr, ‹_›, ‹_›, ‹_›, ‹_›, rfl⟩
            · cases h
          · cases h
        · cases h; simp at hh
      · cases h; simp at hh
    · cases h; simp at hh
  · rw [fillbCommand_mismatch _ _ _ _ _ _ _ hf] at h
    cases h; simp at hh

/-- Position `pos` of the burst of a uniform fill (R120, R121). -/
theorem readElem_uniformGroups (f : Family) (g : Nat) (r : Regs) (b : Buffer) (m : List Host.Cell) (pos : Nat)
    (h : pos / 4 < g) : Memory.readElem (Memory.storeBurst b 0 (uniformGroups cfg f g r).1 m) b pos =
      some (uniformElem cfg f r pos) := by
  rw [readElem_burst _ _ _ _ _ (uniformGroups_getElem _ _ _ _ _ h), cvt01,
    lane_mapLanes _ _ _ (Nat.mod_lt pos (show 4 > 0 by omega))]
  rfl

/-- Position `pos` of the burst of a binomial fill (R128). -/
theorem readElem_binomialGroups (f : Family) (N n g : Nat) (r : Regs) (b : Buffer) (m : List Host.Cell) (pos : Nat)
    (h : pos / 4 < g) (hN : N < 2 ^ 32) :
    Memory.readElem (Memory.storeBurst b 0 (binomialGroups cfg f N n g r).1 m) b pos =
      some (cnt2f (successes cfg f N n r pos)) := by
  have hk := Nat.mod_lt pos (show 4 > 0 by omega)
  have ht : (fun i => belowThreshold cfg n
      (lane (pos % 4) (drawEntropy cfg f (advances cfg f (N * (pos / 4)) r) (i + 1)))) = trialSucceeds cfg f N n r pos := by
    funext i
    rw [Bool.eq_iff_iff, belowThreshold_iff, drawEntropy_advances, trialSucceeds, decide_eq_true_iff, Nat.mul_comm N,
      ← Nat.add_assoc]
  have hs := successes_le cfg f N n r pos
  rw [readElem_burst _ _ _ _ _ (binomialGroups_getElem _ _ _ _ _ _ _ h), lane_mapLanes _ _ _ hk,
    trialLoop_lane _ _ _ _ _ _ _ hk, ht, lane_zero, BitVec.zero_add, countElem, BitVec.toNat_ofNat]
  rw [Nat.mod_eq_of_lt (show List.countP (trialSucceeds cfg f N n r pos) (List.range N) < 2 ^ 32 from lt_of_le_of_lt hs hN)]
  rfl

/-! ### A burst cut by a reset (R165) -/

/-- An element that had landed when its burst was cut holds what the whole burst owes to its position (R165). -/
theorem readElem_storeCut (b : Buffer) (Vs : List Bits128) (k : Nat) (landed : BitVec 4) (m : List Host.Cell) (pos : Nat)
    (V : Bits128) (hV : Vs[pos / 4]? = some V) (hor : hadLanded k landed pos) :
    Memory.readElem (Memory.storeCut b Vs k landed m) b pos = some (lane (pos % 4) V) := by
  have hkl0 : pos / 4 < Vs.length := by
    by_contra h; rw [List.getElem?_eq_none (by omega)] at hV; cases hV
  unfold Memory.storeCut
  rcases hor with hk | ⟨hk, hb⟩
  · have hT : (Vs.take k)[pos/4]? = some V := by rw [List.getElem?_take, if_pos hk]; exact hV
    have h1 := readElem_burst b (Vs.take k) m pos _ hT
    split
    · exact h1
    · rename_i W rest' hdr
      rw [← h1]
      have hoth : ∀ i m', i < 4 →
          Memory.readElem (Memory.storeIfLanded b k i W landed m') b pos = Memory.readElem m' b pos := by
        intro i m' hi
        rw [Memory.storeIfLanded]; split
        · exact Memory.readElem_bufWrite_other _ _ _ _ _ (by omega)
        · rfl
      rw [hoth 3 _ (by omega), hoth 2 _ (by omega), hoth 1 _ (by omega), hoth 0 _ (by omega)]
  · have hdr : Vs.drop k = V :: Vs.drop (k+1) := by
      have hkl : k < Vs.length := by omega
      rw [List.drop_eq_getElem_cons hkl]
      congr 1
      rw [hk, List.getElem?_eq_getElem hkl] at hV
      simpa using hV
    rw [hdr]
    simp only
    have hsame : ∀ j m', landed.getLsbD j = true →
        Memory.readElem (Memory.storeIfLanded b k j V landed m') b (4*k+j) = some (lane j V) := by
      intro j m' hb; rw [Memory.storeIfLanded, if_pos hb, Memory.readElem_bufWrite_same]
    have hoth : ∀ j i m', j < 4 → i < 4 → i ≠ j →
        Memory.readElem (Memory.storeIfLanded b k i V landed m') b (4*k+j) = Memory.readElem m' b (4*k+j) := by
      intro j i m' hj hi hne
      rw [Memory.storeIfLanded]; split
      · exact Memory.readElem_bufWrite_other _ _ _ _ _ (by omega)
      · rfl
    have hp : pos = 4 * k + pos % 4 := by omega
    have : pos % 4 = 0 ∨ pos % 4 = 1 ∨ pos % 4 = 2 ∨ pos % 4 = 3 := by omega
    rw [hp]
    rw [show (4 * k + pos % 4) % 4 = pos % 4 by omega]
    rcases this with h | h | h | h <;> rw [h] at hb ⊢
    · rw [hoth 0 3 _ (by omega) (by omega) (by omega), hoth 0 2 _ (by omega) (by omega) (by omega),
        hoth 0 1 _ (by omega) (by omega) (by omega), hsame _ _ hb]
    · rw [hoth 1 3 _ (by omega) (by omega) (by omega), hoth 1 2 _ (by omega) (by omega) (by omega), hsame _ _ hb]
    · rw [hoth 2 3 _ (by omega) (by omega) (by omega), hsame _ _ hb]
    · rw [hsame _ _ hb]

/-- A cut burst touches no byte but those of the elements that had landed (R165). -/
theorem read_storeCut_outside (b : Buffer) (Vs : List Bits128) (k : Nat) (landed : BitVec 4) (m : List Host.Cell) (a : Nat)
    (ha : ∀ pos j, pos < 4 * Vs.length → hadLanded k landed pos → j < 4 → a ≠ b.base + (4 * pos + j)) :
    Memory.read (Memory.storeCut b Vs k landed m) a = Memory.read m a := by
  have hbefore : ∀ n, n ≤ k → n ≤ Vs.length → Memory.read (Memory.storeBurst b 0 (Vs.take n) m) a = Memory.read m a := by
    intro n hn hn'
    apply Memory.read_storeBurst_other
    by_contra hcon
    have hl2 : (Vs.take n).length = n := by rw [List.length_take]; omega
    rw [hl2] at hcon
    refine ha ((a - b.base)/4) ((a - b.base)%4) (by omega) (Or.inl (by omega)) (by omega) (by omega)
  unfold Memory.storeCut
  split
  · rename_i hdr
    have : Vs.length ≤ k := List.drop_eq_nil_iff.mp hdr
    rw [List.take_of_length_le this]
    have := hbefore Vs.length this (le_refl _)
    rwa [List.take_length] at this
  · rename_i V rest' hdr
    have hkl : k < Vs.length := by
      by_contra hcon
      rw [List.drop_of_length_le (by omega)] at hdr; cases hdr
    have hoth : ∀ i m', i < 4 → Memory.read (Memory.storeIfLanded b k i V landed m') a = Memory.read m' a := by
      intro i m' hi
      rw [Memory.storeIfLanded]; split
      · rename_i hb
        apply Memory.read_memWrite_other
        by_contra hcon
        refine ha (4*k+i) (a - b.base - 4*(4*k+i)) (by omega) (Or.inr ⟨by omega, ?_⟩) (by omega) (by omega)
        rw [show (4*k+i)%4 = i by omega]; exact hb
      · rfl
    rw [hoth 3 _ (by omega), hoth 2 _ (by omega), hoth 1 _ (by omega), hoth 0 _ (by omega)]
    exact hbefore k (le_refl _) (by omega)

end Sys2Proof.Machine
end

