-- ==== Sys2Proof/Laws/Jump.lean ====
section
/-! SUPPORT. Polynomials over the two-element field in a linear operator on scalar states: sums, products by x and squares
modulo a polynomial of degree 128, and the jump of R91 as such a polynomial. -/

namespace Sys2Proof.Machine

/-- An operator on scalar states that is linear over the two-element field (R85). -/
def Additive (T : Scalar → Scalar) : Prop := ∀ u v, T (u.xor v) = (T u).xor (T v)

/-- The sum of `T` applied i times, over the set bits i < n of `p`. -/
def polyOp (T : Scalar → Scalar) : Nat → Nat → Scalar → Scalar
  | 0, _, _ => Scalar.zero
  | n + 1, p, x => (if p % 2 = 1 then x else Scalar.zero).xor (polyOp T n (p / 2) (T x))

theorem Scalar.xor_left_comm (x y z : Scalar) : x.xor (y.xor z) = y.xor (x.xor z) := by
  rw [← Scalar.xor_assoc, Scalar.xor_comm x y, Scalar.xor_assoc]

theorem Scalar.xor_xor_cancel (x y : Scalar) : x.xor (x.xor y) = y := by
  rw [← Scalar.xor_assoc, Scalar.xor_self, Scalar.zero_xor]

theorem Additive.map_zero {T : Scalar → Scalar} (h : Additive T) : T Scalar.zero = Scalar.zero := by
  have := h Scalar.zero Scalar.zero
  rw [Scalar.xor_self, Scalar.xor_self] at this
  exact this

theorem Additive.map_ite {T : Scalar → Scalar} (h : Additive T) (c : Prop) [Decidable c] (x : Scalar) :
    T (if c then x else Scalar.zero) = if c then T x else Scalar.zero := by
  split
  · rfl
  · exact h.map_zero

theorem polyOp_additive {T : Scalar → Scalar} (h : Additive T) (n p : Nat) : Additive (polyOp T n p) := by
  intro u v
  induction n generalizing p u v with
  | zero => exact (Scalar.xor_self _).symm
  | succ n ih =>
    simp only [polyOp, h u v, ih]
    split
    · simp only [Scalar.xor_assoc, Scalar.xor_left_comm v]
    · simp only [Scalar.zero_xor]

theorem polyOp_comm {T : Scalar → Scalar} (h : Additive T) (n p : Nat) (x : Scalar) :
    polyOp T n p (T x) = T (polyOp T n p x) := by
  induction n generalizing p x with
  | zero => exact h.map_zero.symm
  | succ n ih => simp only [polyOp, h _ _, h.map_ite, ih]

/-- Squaring is additive in characteristic 2: a polynomial in `T` applied twice is the polynomial in `T` applied twice. -/
theorem polyOp_twice {T : Scalar → Scalar} (h : Additive T) (n p : Nat) (x : Scalar) :
    polyOp T n p (polyOp T n p x) = polyOp (fun y => T (T y)) n p x := by
  induction n generalizing p x with
  | zero => rfl
  | succ n ih =>
    have hA := polyOp_additive h n (p / 2)
    simp only [polyOp]
    rw [h _ _, hA _ _, h.map_ite, hA.map_ite, ← polyOp_comm h, ih]
    split
    · rw [Scalar.xor_assoc, Scalar.xor_xor_cancel]
    · simp only [Scalar.zero_xor]

theorem polyOp_xor (T : Scalar → Scalar) (n p q : Nat) (x : Scalar) :
    polyOp T n (p ^^^ q) x = (polyOp T n p x).xor (polyOp T n q x) := by
  induction n generalizing p q x with
  | zero => exact (Scalar.xor_self _).symm
  | succ n ih =>
    have h2 : (p ^^^ q) / 2 = p / 2 ^^^ q / 2 := Nat.xor_div_two
    have hb : (p ^^^ q) % 2 = (p % 2 + q % 2) % 2 := by
      rw [Nat.xor_mod_two_eq, Nat.add_mod]
    simp only [polyOp, h2, ih, hb]
    rcases Nat.mod_two_eq_zero_or_one p with hp | hp <;> rcases Nat.mod_two_eq_zero_or_one q with hq | hq <;>
      simp only [hp, hq] <;> norm_num
    · simp only [Scalar.zero_xor]
    · simp only [Scalar.zero_xor, Scalar.xor_left_comm x]
    · simp only [Scalar.zero_xor, Scalar.xor_assoc]
    · rw [Scalar.zero_xor, Scalar.xor_assoc, Scalar.xor_left_comm _ x, Scalar.xor_xor_cancel]

theorem polyOp_double (T : Scalar → Scalar) (n p : Nat) (x : Scalar) :
    polyOp T (n + 1) (2 * p) x = polyOp T n p (T x) := by
  simp [polyOp, Scalar.zero_xor]

theorem polyOp_top (T : Scalar → Scalar) (n p : Nat) (x : Scalar) (hp : p < 2 ^ n) :
    polyOp T (n + 1) (p + 2 ^ n) x = (polyOp T n p x).xor (T^[n] x) := by
  induction n generalizing p x with
  | zero =>
    have : p = 0 := by omega
    subst this; simp [polyOp, Scalar.xor_zero, Scalar.zero_xor]
  | succ n ih =>
    have h1 : (p + 2 ^ (n + 1)) % 2 = p % 2 := by rw [pow_succ]; omega
    have h2 : (p + 2 ^ (n + 1)) / 2 = p / 2 + 2 ^ n := by rw [pow_succ]; omega
    rw [polyOp, h1, h2, ih _ _ (by rw [pow_succ] at hp; omega), ← Scalar.xor_assoc]
    rfl

theorem polyOp_zero_bits (T : Scalar → Scalar) (n p : Nat) (x : Scalar) (hp : p < 2 ^ n) :
    polyOp T (n + 1) p x = polyOp T n p x := by
  induction n generalizing p x with
  | zero =>
    have : p = 0 := by omega
    subst this; simp [polyOp]
  | succ n ih =>
    rw [polyOp, ih _ _ (by rw [pow_succ] at hp; omega)]
    rfl

/-- The polynomial `p` of degree below 128 times x, modulo x^128 + low. -/
def mulX (low p : Nat) : Nat := if p < 2 ^ 127 then 2 * p else (2 * (p - 2 ^ 127)) ^^^ low

theorem mulX_lt {low p : Nat} (hl : low < 2 ^ 128) (hp : p < 2 ^ 128) : mulX low p < 2 ^ 128 := by
  unfold mulX
  split
  · omega
  · exact Nat.xor_lt_two_pow (by omega) hl

theorem polyOp_mulX {T : Scalar → Scalar} {low p : Nat} (hlow : ∀ x, T^[128] x = polyOp T 128 low x)
    (hp : p < 2 ^ 128) (x : Scalar) : polyOp T 128 (mulX low p) x = polyOp T 128 p (T x) := by
  unfold mulX
  split
  · rw [polyOp_double T 127, ← polyOp_zero_bits T 127 p _ ‹_›]
  · have hq : p - 2 ^ 127 < 2 ^ 127 := by omega
    rw [polyOp_xor, polyOp_double T 127, ← hlow]
    conv_rhs => rw [show p = p - 2 ^ 127 + 2 ^ 127 by omega]
    rw [polyOp_top T 127 _ _ hq]
    rfl

/-- The square of `p`, whose low n bits are looked at, modulo x^128 + low. -/
def squareMod (low : Nat) : Nat → Nat → Nat
  | 0, _ => 0
  | n + 1, p => mulX low (mulX low (squareMod low n (p / 2))) ^^^ (p % 2)

theorem squareMod_lt {low : Nat} (hl : low < 2 ^ 128) (n p : Nat) : squareMod low n p < 2 ^ 128 := by
  induction n generalizing p with
  | zero => exact Nat.two_pow_pos 128
  | succ n ih => exact Nat.xor_lt_two_pow (mulX_lt hl (mulX_lt hl (ih _))) (by omega)

theorem polyOp_bit (T : Scalar → Scalar) (n b : Nat) (hb : b < 2) (x : Scalar) :
    polyOp T (n + 1) b x = if b = 1 then x else Scalar.zero := by
  have hz : ∀ n x, polyOp T n 0 x = Scalar.zero := by
    intro n; induction n with
    | zero => intro x; rfl
    | succ n ih => intro x; simp [polyOp, ih]
  have : b = 0 ∨ b = 1 := by omega
  rcases this with rfl | rfl <;> simp [polyOp, hz, Scalar.xor_zero]

theorem polyOp_squareMod {T : Scalar → Scalar} {low : Nat} (hl : low < 2 ^ 128)
    (hlow : ∀ x, T^[128] x = polyOp T 128 low x) (n p : Nat) (x : Scalar) :
    polyOp T 128 (squareMod low n p) x = polyOp (fun y => T (T y)) n p x := by
  induction n generalizing p x with
  | zero => rw [squareMod, polyOp_bit T 127 0 (by omega)]; rfl
  | succ n ih =>
    rw [squareMod, polyOp_xor, polyOp_mulX hlow (mulX_lt hl (squareMod_lt hl _ _)), polyOp_mulX hlow (squareMod_lt hl _ _),
      ih, polyOp_bit T 127 _ (by omega), Scalar.xor_comm]
    rfl

/-- `k` squarings of `p` modulo x^128 + low. -/
def squareTimes (low : Nat) : Nat → Nat → Nat
  | 0, p => p
  | k + 1, p => squareTimes low k (squareMod low 128 p)

theorem iterate_polyOp {T : Scalar → Scalar} (h : Additive T) {low : Nat} (hl : low < 2 ^ 128)
    (hlow : ∀ x, T^[128] x = polyOp T 128 low x) (k m p : Nat) (hp : ∀ x, T^[m] x = polyOp T 128 p x) (x : Scalar) :
    T^[m * 2 ^ k] x = polyOp T 128 (squareTimes low k p) x := by
  induction k generalizing m p with
  | zero => simpa [squareTimes] using hp x
  | succ k ih =>
    rw [squareTimes, ← ih (m * 2) (squareMod low 128 p), pow_succ', mul_assoc]
    intro y
    rw [polyOp_squareMod hl hlow, ← polyOp_twice h, ← hp, ← hp, ← Function.iterate_add_apply, mul_two]

/-- Two additive operators that agree on the 128 unit states agree. -/
theorem additive_ext {S T : Scalar → Scalar} (hS : Additive S) (hT : Additive T)
    (h0 : ∀ i < 64, S ⟨BitVec.twoPow 64 i, 0⟩ = T ⟨BitVec.twoPow 64 i, 0⟩)
    (h1 : ∀ i < 64, S ⟨0, BitVec.twoPow 64 i⟩ = T ⟨0, BitVec.twoPow 64 i⟩) (x : Scalar) : S x = T x := by
  have word : ∀ (P : Bits64 → Prop), P 0 → (∀ u v, P u → P v → P (u ^^^ v)) → (∀ i < 64, P (BitVec.twoPow 64 i)) →
      ∀ w, P w := by
    intro P hz hx hb w
    have : ∀ n ≤ 64, P (BitVec.setWidth 64 (BitVec.setWidth n w)) := by
      intro n
      induction n with
      | zero => intro _; rw [BitVec.of_length_zero (x := BitVec.setWidth 0 w)]; exact hz
      | succ n ih =>
        intro hn
        have e : BitVec.setWidth 64 (BitVec.setWidth (n + 1) w) =
            BitVec.setWidth 64 (BitVec.setWidth n w) ^^^ (if w.getLsbD n then BitVec.twoPow 64 n else 0) := by
          apply BitVec.eq_of_getLsbD_eq
          intro i hi
          rw [BitVec.getLsbD_xor]
          simp only [BitVec.getLsbD_setWidth, hi, decide_true, Bool.true_and]
          rcases Nat.lt_trichotomy i n with h | h | h
          · split <;> simp [h, show i < n + 1 by omega, BitVec.getLsbD_twoPow, show n ≠ i by omega]
          · subst h
            split
            · simp_all
            · simp_all
          · split <;> simp [show ¬ i < n by omega, show ¬ i < n + 1 by omega, BitVec.getLsbD_twoPow, show n ≠ i by omega]
        rw [e]
        refine hx _ _ (ih (by omega)) ?_
        split
        · exact hb n (by omega)
        · exact hz
    simpa using this 64 (le_refl _)
  have hA : ∀ w, S ⟨w, 0⟩ = T ⟨w, 0⟩ := word (fun w => S ⟨w, 0⟩ = T ⟨w, 0⟩) (hS.map_zero.trans hT.map_zero.symm)
    (fun u v hu hv => by
      have e : (⟨u ^^^ v, 0⟩ : Scalar) = Scalar.xor ⟨u, 0⟩ ⟨v, 0⟩ := by simp [Scalar.xor]
      rw [e, hS _ _, hT _ _, hu, hv]) h0
  have hB : ∀ w, S ⟨0, w⟩ = T ⟨0, w⟩ := word (fun w => S ⟨0, w⟩ = T ⟨0, w⟩) (hS.map_zero.trans hT.map_zero.symm)
    (fun u v hu hv => by
      have e : (⟨0, u ^^^ v⟩ : Scalar) = Scalar.xor ⟨0, u⟩ ⟨0, v⟩ := by simp [Scalar.xor]
      rw [e, hS _ _, hT _ _, hu, hv]) h1
  have e : x = Scalar.xor ⟨x.x0, 0⟩ ⟨0, x.x1⟩ := by cases x; simp [Scalar.xor]
  rw [e, hS _ _, hT _ _, hA, hB]

theorem iterate_additive {T : Scalar → Scalar} (h : Additive T) (n : Nat) : Additive (T^[n]) := by
  induction n with
  | zero => intro u v; rfl
  | succ n ih => intro u v; rw [Function.iterate_succ_apply, h, ih]; rfl

/-- The loop of R91 adds up the polynomial of the bits from `i` on. -/
theorem jumpLoop_eq_polyOp (T : Scalar → Scalar) (poly : Bits128) (n i : Nat) (W R : Scalar) :
    jumpLoop T poly n i W R = R.xor (polyOp T n (poly.toNat >>> i) W) := by
  induction n generalizing i W R with
  | zero => exact (Scalar.xor_zero R).symm
  | succ n ih =>
    have hb : poly.getLsbD i = decide (poly.toNat >>> i % 2 = 1) := by
      rw [BitVec.getLsbD, Nat.testBit_eq_decide_div_mod_eq, Nat.shiftRight_eq_div_pow]
    rw [jumpLoop, ih, polyOp, hb, Nat.shiftRight_succ, ← Scalar.xor_assoc]
    simp only [decide_eq_true_eq]
    split
    · rfl
    · rw [Scalar.xor_zero]

/-- The jump is the jump polynomial in the scalar step (R91). -/
theorem jumpAhead_eq_polyOp (c : Cfg) (f : Family) (a : Scalar) :
    jumpAhead c f a = polyOp (sstep c f) 128 (jumpPoly c f).toNat a := by
  rw [jumpAhead, jumpLoop_eq_polyOp, Scalar.zero_xor, Nat.shiftRight_zero]

end Sys2Proof.Machine
end

