-- ==== Sys2Proof/Laws/PerInstr.lean ====
section
/-! SUPPORT. Per command: the fields of its descriptor that are not its operands (R61, R63). -/

namespace Sys2Proof.Laws.FixedFields

open Sys2Proof.Machine

/-- The reserved field is 0, the family bit is the command's, and the length field is the length of a fill and 0 in any
other command (R61). -/
def Statement (i : Instr) : Prop :=
  fieldRsv (encode i) = 0#27 ∧ (fieldF (encode i) = 0#1 ↔ family i = .rsx) ∧ fieldLen (encode i) = (fillLen i).getD 0#32

theorem initRsx (seed : Bits64) : Statement (.initRsx seed) := by simp [Statement, encode, family, fillLen]

theorem initSxa (seed : Bits64) : Statement (.initSxa seed) := by simp [Statement, encode, family, fillLen]

theorem advRsx : Statement .advRsx := by simp [Statement, encode, family, fillLen]

theorem advSxa : Statement .advSxa := by simp [Statement, encode, family, fillLen]

theorem filluRsx (len : Bits32) : Statement (.filluRsx len) := by simp [Statement, encode, family, fillLen]

theorem filluSxa (len : Bits32) : Statement (.filluSxa len) := by simp [Statement, encode, family, fillLen]

theorem fillbRsx (trials prob len : Bits32) : Statement (.fillbRsx trials prob len) := by
  simp [Statement, encode, family, fillLen]

theorem fillbSxa (trials prob len : Bits32) : Statement (.fillbSxa trials prob len) := by
  simp [Statement, encode, family, fillLen]

end Sys2Proof.Laws.FixedFields
end

