-- ==== Sys2Proof/Tests/Slice0.lean ====
section
/-! SUPPORT. Tests of one step or one function each, with expected results from spec/95_test_vectors.md (named in each
comment), and for every obligation with hypotheses a named witness: concrete values that meet them together. -/

namespace Sys2Proof.Tests

open Sys2Proof.Machine

-- One theorem at a time: many kernel evaluations started at once each hold a thread.
set_option Elab.async false

/-! ### Helpers -/

/-- The next state of an outcome, if it is one. -/
def nextState? (o : Host.Outcome State Fault Refusal) : Option State :=
  match o with
  | .next s => some s
  | .fault _ => none
  | .refused _ => none

/-- The outcome is a next state that is not halted. -/
def completes (o : Host.Outcome State Fault Refusal) : Bool := (nextState? o).any (fun s => !s.halt)

theorem exists_of_completes {o : Host.Outcome State Fault Refusal} (h : completes o = true) :
    ∃ t, o = .next t ∧ t.halt = false := by
  cases o with
  | next t => exact ⟨t, rfl, by simpa [completes, nextState?] using h⟩
  | fault r => simp [completes, nextState?] at h
  | refused r => simp [completes, nextState?] at h

/-- The outcome is a state halted with this STATUS word and FCMD, the generator, memory and ports as in `s`. -/
def faultsWith (status : Bits32) (d : Bits128) (s : State) (o : Host.Outcome State Fault Refusal) : Bool :=
  (nextState? o).any (fun t => t.status == status && t.fcmd == d && t.gen == s.gen && t.mem == s.mem
    && t.result == s.result && t.burst == s.burst && t.done == s.done)

/-- The registers after `init.rsx 42` (section 2.3). -/
def rsx42 : Regs := ⟨0x7377f06a0c55df4a810879608e4259cc, 0x359fe2a84e39b6fa310dcdae81f2889b⟩

/-- The registers after `init.sxa 42` (section 2.3). -/
def sxa42 : Regs := ⟨0xf1e5a1cbafba6863810879608e4259cc, 0x6f3e5926d058987d310dcdae81f2889b⟩

/-- A block in this generator state, with a buffer of 8 elements at 0x100 bound. -/
def blockWith (f : Family) (r : Regs) : State := { State.reset with gen := some ⟨f, r⟩, buf := ⟨0x100, 8⟩ }

def afterRsx42 : State := blockWith .rsx rsx42
def afterSxa42 : State := blockWith .sxa sxa42

/-- The host presents `d` with a buffer of 8 elements at 0x100. -/
def presenting (d : Bits128) (s : State) : State := { s with inputs := [.command d ⟨0x100, 8⟩] }

/-- The first `n` elements of the buffer at 0x100 after an outcome. -/
def elements (n : Nat) (o : Host.Outcome State Fault Refusal) : List (Option Bits32) :=
  match nextState? o with
  | some t => (List.range n).map (Memory.readElem t.mem ⟨0x100, 8⟩)
  | none => []

/-! ### Decoding: words written out field by field from R61 and R63: arg, len, rsv, f, op -/

theorem test_decode_initRsx :
    decode (0x000000000000002A#64 ++ 0#32 ++ 0b000000000000000000000000000#27 ++ 0b0#1 ++ 0b0001#4) =
      .ok (.initRsx 42) := rfl

theorem test_decode_initSxa :
    decode (0x000000000000002A#64 ++ 0#32 ++ 0b000000000000000000000000000#27 ++ 0b1#1 ++ 0b0001#4) =
      .ok (.initSxa 42) := rfl

theorem test_decode_advRsx :
    decode (0#64 ++ 0#32 ++ 0b000000000000000000000000000#27 ++ 0b0#1 ++ 0b0010#4) = .ok .advRsx := rfl

theorem test_decode_advSxa :
    decode (0#64 ++ 0#32 ++ 0b000000000000000000000000000#27 ++ 0b1#1 ++ 0b0010#4) = .ok .advSxa := rfl

theorem test_decode_filluRsx :
    decode (0#64 ++ 0b00000000000000000000000000000100#32 ++ 0b000000000000000000000000000#27 ++ 0b0#1 ++ 0b0011#4) =
      .ok (.filluRsx 4) := rfl

theorem test_decode_filluSxa :
    decode (0#64 ++ 0b00000000000000000000111110100000#32 ++ 0b000000000000000000000000000#27 ++ 0b1#1 ++ 0b0011#4) =
      .ok (.filluSxa 4000) := rfl

theorem test_decode_fillbRsx :
    decode (0b00111111000000000000000000000000#32 ++ 0b00000000000000000000000001100100#32 ++
      0b00000000000000000000000110010000#32 ++ 0b000000000000000000000000000#27 ++ 0b0#1 ++ 0b0100#4) =
      .ok (.fillbRsx 100 0x3F000000 400) := rfl

theorem test_decode_fillbSxa :
    decode (0b00111111000000000000000000000000#32 ++ 0b00000000000000000000000000000011#32 ++
      0b00000000000000000000000000001000#32 ++ 0b000000000000000000000000000#27 ++ 0b1#1 ++ 0b0100#4) =
      .ok (.fillbSxa 3 0x3F000000 8) := rfl

/-- Section 2.10: descriptors with ill-formed operands decode (R65). -/
theorem test_decode_keeps_bad_operands :
    [decodeTableWord 128 0x00000000000000000000000600000003, decodeTableWord 128 0x00000000000000000000000000000003,
      decodeTableWord 128 0x3f000000ffffffff0000000400000004, decodeTableWord 128 0x3fc00000000000040000000400000004,
      decodeTableWord 128 0xffffffffffffffff0000000000000001] =
    [some (.filluRsx 6), some (.filluRsx 0), some (.fillbRsx 0xffffffff 0x3f000000 4),
      some (.fillbRsx 4 0x3fc00000 4), some (.initRsx 0xffffffffffffffff)] := by decide +kernel

/-- Section 2.10: the illegal descriptors. -/
theorem test_decode_refuses_illegal :
    [0x00000000000000000000000000000000, 0x00000000000000000000000000000005, 0x0000000000000000000000000000000f,
      0x00000000000000000000000000000022, 0x00000000000000000000000080000002, 0x00000000000000000000000400000001,
      0x00000000000000000000000400000002, 0x00000000000000010000000000000002,
      0x00000000000000010000000400000003].all (fun w => (decodeTableWord 128 w).isNone) = true := by decide +kernel

/-! ### Well-formedness refuses ill-formed terms -/

theorem test_wf_refuses_zero_length : Instr.wf (.filluRsx 0) = false := by decide +kernel
theorem test_wf_refuses_length_6 : Instr.wf (.filluSxa 6) = false := by decide +kernel
theorem test_wf_refuses_binomial_length_6 : Instr.wf (.fillbRsx 4 0x3F000000 6) = false := by decide +kernel
theorem test_wf_refuses_negative_trials : Instr.wf (.fillbRsx 0xffffffff 0x3F000000 4) = false := by decide +kernel
theorem test_wf_refuses_probability_above_one : Instr.wf (.fillbSxa 4 0x3F800001 4) = false := by decide +kernel
theorem test_wf_refuses_nan : Instr.wf (.fillbSxa 4 0x7FC00000 4) = false := by decide +kernel
theorem test_wf_refuses_negative_subnormal : Instr.wf (.fillbSxa 4 0x80000001 4) = false := by decide +kernel
theorem test_wf_admits_negative_zero : Instr.wf (.fillbSxa 4 0x80000000 4) = true := by decide +kernel
theorem test_cfg_wf_refuses_amount_0 : Cfg.wf { ref with rsxA := 0 } = false := by decide +kernel
theorem test_cfg_wf_refuses_amount_64 : Cfg.wf { ref with sxaC := 64 } = false := by decide +kernel
theorem test_cfg_wf_refuses_shift_8 : Cfg.wf { ref with cvtSh := 8 } = false := by decide +kernel
theorem test_cfg_wf_refuses_trials_max : Cfg.wf { ref with trialsMax := 2 ^ 31 } = false := by decide +kernel

/-! ### Unit functions -/

/-- Section 2.1. -/
theorem test_mixer :
    [0x0, 0x1, 0x2, 0x2a, 0xffffffffffffffff, 0x0123456789abcdef].map mixRef =
    [0x0, 0xb456bcfc34c2cb2c, 0x3abf2a20650683e7, 0x810879608e4259cc, 0x64b5720b4b825f21, 0x87cbfbfe89022cea] := by
  decide +kernel

/-- Section 2.2, RSX. -/
theorem test_step_rsx :
    [⟨1, 0⟩, ⟨0, 1⟩, ⟨1, 2⟩, ⟨0xffffffffffffffff, 0⟩, ⟨0x8000000000000000, 0x8000000000000000⟩].map (sstep ref .rsx) =
    [⟨0x0080000000004001, 0x0000001000000000⟩, ⟨0x4001, 0x0000001000000000⟩, ⟨0x008000000000c003, 0x0000003000000000⟩,
      ⟨0xffffffffffffc000, 0xffffffffffffffff⟩, ⟨0x0040000000000000, 0⟩] := by decide +kernel

/-- Section 2.2, SXA. -/
theorem test_step_sxa :
    [⟨1, 0⟩, ⟨0, 1⟩, ⟨1, 2⟩, ⟨0xffffffffffffffff, 0⟩, ⟨0x8000000000000000, 0x8000000000000000⟩].map (sstep ref .sxa) =
    [⟨0, 0x800021⟩, ⟨1, 1⟩, ⟨2, 0x800023⟩, ⟨0, 0x7fffe0⟩, ⟨0x8000000000000000, 0x0400200000000000⟩] := by
  decide +kernel

/-- Section 2.5. -/
theorem test_converters :
    [0x00000000, 0x000001ff, 0x00000200, 0x80000000, 0xffffffff, 0x8bfd7d5b, 0x00560910].map
      (fun x => (cvt12Lane ref x, cvt01Lane ref x)) =
    [(0x3f800000, 0x00000000), (0x3f800000, 0x00000000), (0x3f800001, 0x34000000), (0x3fc00000, 0x3f000000),
      (0x3fffffff, 0x3f7ffffe), (0x3fc5febe, 0x3f0bfd7c), (0x3f802b04, 0x3aac1000)] := by decide +kernel

/-- Section 2.6. -/
theorem test_thresholds :
    [0x00000000, 0x80000000, 0x007fffff, 0x33800000, 0x33800001, 0x33c00000, 0x34000000, 0x34400000, 0x3c23d70a,
      0x3eaaaaab, 0x3f666666, 0x3f7fffff, 0x3f800000].map thresh =
    [0, 0, 0, 0, 1, 1, 1, 2, 0x0147ae, 0x2aaaab, 0x733333, 0x800000, 0x800000] := by decide +kernel

/-- Section 2.6, out of contract. -/
theorem test_probabilities_out_of_contract :
    [0x3f800001, 0x3fc00000, 0x40000000, 0x7f800000, 0xff800000, 0x7fc00000, 0xffc00000, 0x7f800001, 0x80000001,
      0xbf000000].all (fun b => !probOk b) = true := by decide +kernel

/-- Section 2.7. -/
theorem test_count_conversion :
    [0, 1, 3, 5, 100, 16777215, 16777216, 16777217, 16777218].map cnt2f =
    [0, 0x3f800000, 0x40400000, 0x40a00000, 0x42c80000, 0x4b7fffff, 0x4b800000, 0x4b800000, 0x4b800001] := by
  decide +kernel

/-! ### One step of each command -/

/-- Section 2.3. -/
theorem test_initRsx_42 :
    (nextState? (step (presenting 0x000000000000002A0000000000000001 State.reset))).map
      (fun t => (t.gen, t.status, t.done)) = some (some ⟨.rsx, rsx42⟩, 0x4, true) := by decide +kernel

/-- Section 2.3: seed 0 gives the all-zero state, whatever stood there before. -/
theorem test_initRsx_0 : (nextState? (exec (.initRsx 0) afterSxa42)).map (·.gen) = some (some ⟨.rsx, Regs.zero⟩) := by
  decide +kernel

/-- Section 2.3. -/
theorem test_initSxa_42 :
    (nextState? (step (presenting 0x000000000000002A0000000000000011 afterRsx42))).map
      (fun t => (t.gen, t.status, t.done)) = some (some ⟨.sxa, sxa42⟩, 0x8, true) := by decide +kernel

/-- Section 2.3. -/
theorem test_initSxa_1 :
    (nextState? (exec (.initSxa 1) State.reset)).map (·.gen) =
      some (some ⟨.sxa, ⟨0x32ae101af0a00a67b456bcfc34c2cb2c, 0x8c92f5a7307ffd757d6e4ac38b2b1be2⟩⟩) := by decide +kernel

/-- Section 2.4, first row. -/
theorem test_advRsx :
    (nextState? (exec .advRsx afterRsx42)).map (fun t => (t.result, t.gen)) =
      some (some 0x0e27d4a5db876f833683c8998bfd7d5b,
        some ⟨.rsx, ⟨0xe76139a16d06435f3b76b31e8ba2307b, 0x26c69b046e812c24fb0d157b005b4ce0⟩⟩) := by decide +kernel

/-- V-F1: a draw before any `INIT`. -/
theorem test_advRsx_after_reset :
    faultsWith 0x22 0x00000000000000000000000000000002 State.reset
      (step (presenting 0x00000000000000000000000000000002 State.reset)) = true := by decide +kernel

/-- Section 2.4, first row for SXA. -/
theorem test_advSxa :
    (nextState? (exec .advSxa afterSxa42)).map (fun t => (t.result, t.gen)) =
      some (some 0xe7b42b43b8386bd032d8c58acd9ee79e,
        some ⟨.sxa, ⟨0x6f3e5926d058987d310dcdae81f2889b, 0x7875d21ce7dfd35301caf7dc4bac5f03⟩⟩) := by decide +kernel

/-- V-U1. -/
theorem test_filluRsx :
    elements 4 (exec (.filluRsx 4) afterRsx42) =
      [some 0x3f0bfd7c, some 0x3e5a0f20, some 0x3f5b876e, some 0x3d627d40] := by decide +kernel

/-- V-F3. -/
theorem test_filluRsx_length_6 :
    faultsWith 0x36 0x00000000000000000000000600000003 afterRsx42
      (step (presenting 0x00000000000000000000000600000003 afterRsx42)) = true := by decide +kernel

/-- V-U5. -/
theorem test_filluSxa :
    elements 5 (exec (.filluSxa 4) afterSxa42) =
      [some 0x3f4d9ee6, some 0x3e4b6310, some 0x3f38386a, some 0x3f67b42a, none] := by decide +kernel

/-- V-F2. -/
theorem test_filluSxa_wrong_family :
    faultsWith 0x26 0x00000000000000000000000400000013 afterRsx42
      (step (presenting 0x00000000000000000000000400000013 afterRsx42)) = true := by decide +kernel

/-- V-B3: counts 2 2 2 1 1 2 2 3. -/
theorem test_fillbRsx :
    elements 8 (exec (.fillbRsx 3 0x3f000000 8) afterRsx42) =
      [some 0x40000000, some 0x40000000, some 0x40000000, some 0x3f800000, some 0x3f800000, some 0x40000000,
        some 0x40000000, some 0x40400000] := by decide +kernel

/-- V-F12: `BAD_TRIALS` before `BAD_PROB`. -/
theorem test_fillbRsx_two_causes :
    faultsWith 0x46 0x3fc00000ffffffff0000000400000004 afterRsx42
      (step (presenting 0x3fc00000ffffffff0000000400000004 afterRsx42)) = true := by decide +kernel

/-- V-B10, and the registers after it (six advances). -/
theorem test_fillbSxa :
    (nextState? (exec (.fillbSxa 3 0x3f000000 8) afterSxa42)).map
      (fun t => ((List.range 8).map (Memory.readElem t.mem ⟨0x100, 8⟩), t.gen)) =
    some ([some 0x40000000, some 0x3f800000, some 0x3f800000, some 0x40000000, some 0x40400000, some 0x3f800000,
        some 0x3f800000, some 0x40400000],
      some ⟨.sxa, ⟨0x6182f558eab7481d54b7086027e794df, 0xdb7d3ecd26d85f2e688c0e3249db1ba9⟩⟩) := by decide +kernel

/-- V-F5. -/
theorem test_fillbSxa_negative_trials :
    faultsWith 0x4a 0x3f000000ffffffff0000000400000014 afterSxa42
      (step (presenting 0x3f000000ffffffff0000000400000014 afterSxa42)) = true := by decide +kernel

/-- V-F13: `ILLEGAL_CMD` before family and length. -/
theorem test_illegal_descriptor :
    faultsWith 0x12 0x00000000000000000000000600000023 State.reset
      (step (presenting 0x00000000000000000000000600000023 State.reset)) = true := by decide +kernel

/-- R45: the first element of V-U1, 3f0bfd7c, byte by byte. -/
theorem test_bytes_little_endian :
    (nextState? (exec (.filluRsx 4) afterRsx42)).map (fun t => (List.range 4).map (fun i => Memory.read t.mem (0x100 + i))) =
      some [some 0x7c, some 0xfd, some 0x0b, some 0x3f] := by decide +kernel

/-- R165: of V-U1 cut in its first beat only the two elements that had landed stay. -/
theorem test_reset_cuts_fill :
    (nextState? (step { afterRsx42 with
        inputs := [.commandCut 0x00000000000000000000000400000003 ⟨0x100, 8⟩ 0 0b0101] })).map
      (fun t => (t.gen, t.status, (List.range 4).map (Memory.readElem t.mem ⟨0x100, 8⟩))) =
    some (none, 0, [some 0x3f0bfd7c, none, some 0x3f5b876e, none]) := by decide +kernel

/-- A table word runs as the first step after reset (`withFetchWord`). -/
theorem test_withFetchWord_runs :
    completes (step (State.reset.withFetchWord 128 0x00000000000000070000000000000011)) = true := by decide +kernel

/-! ### Witnesses: for every obligation with hypotheses, values that meet them together -/

/-- The block after V-U1: registers after one advance, the four elements in memory. -/
def rsx42Next : Regs := ⟨0xe76139a16d06435f3b76b31e8ba2307b, 0x26c69b046e812c24fb0d157b005b4ce0⟩

/-- Registers that share stream A with `rsx42` and stream B with `rsx42Next`. -/
def rsxMixed : Regs := packStreams (streamA rsx42) (streamB rsx42Next)

/-- A block whose past differs from `afterRsx42` in every register, port and byte. -/
def otherPast : State :=
  { afterSxa42 with result := some 1, burst := [⟨0, 7⟩], done := true, mem := [(0x100, 0x55)], cpc := 9 }

/-- A halted block (V-F2). -/
def haltedBlock : State := raiseFault .familyMismatch 0x00000000000000000000000400000013 afterRsx42

theorem witness_IllegalDescriptorsRaiseIllegalCmd :
    afterRsx42.halt = false ∧ (presenting 0x00000000000000000000000000000005 afterRsx42).inputs =
      .command 0x00000000000000000000000000000005 ⟨0x100, 8⟩ :: [] ∧
    decode 0x00000000000000000000000000000005 = .error .noSuchOp := ⟨rfl, rfl, rfl⟩

/-- `op` = 4 is the last legal one; 5 and 15 are not. -/
theorem witness_IllegalDescriptors_op_boundary :
    decode 0x00000000000000000000000000000004 = .ok (.fillbRsx 0 0 0) ∧
    decode 0x0000000000000000000000000000000F = .error .noSuchOp := ⟨rfl, rfl⟩

theorem witness_EncodeDecodeGivesDescriptorBack :
    decode 0x3FC00000FFFFFFFF0000000600000014 = .ok (.fillbSxa 0xFFFFFFFF 0x3FC00000 6) := rfl

theorem witness_StepRunsDecodedCommand :
    (presenting 0x00000000000000000000000000000002 afterRsx42).halt = false ∧
    (presenting 0x00000000000000000000000000000002 afterRsx42).inputs =
      .command 0x00000000000000000000000000000002 ⟨0x100, 8⟩ :: [] ∧
    decode 0x00000000000000000000000000000002 = .ok .advRsx := ⟨rfl, rfl, rfl⟩

theorem witness_IdleBlockChangesNoRegister : otherPast.halt = false ∧ otherPast.inputs = [] := ⟨rfl, rfl⟩

theorem witness_AdvancesKeepStreamOffset : LanesOffset cfg ⟨.rsx, rsx42⟩ ∧ LanesOffset cfg ⟨.sxa, sxa42⟩ := by
  unfold LanesOffset; decide +kernel

/-- Both sides of the zero corner: seed 0 gives the all-zero state, seed 1 does not. -/
theorem witness_ZeroStateOnlyFromZeroSeed :
    (nextState? (exec (initOf .sxa 0) afterRsx42)).map (·.gen) = some (some ⟨.sxa, Regs.zero⟩) ∧
    (nextState? (exec (initOf .sxa 1) afterRsx42)).map (·.gen) ≠ some (some ⟨.sxa, Regs.zero⟩) := by decide +kernel

theorem witness_InitErasesThePast_coherent :
    (presenting (encode (initOf .rsx 42)) otherPast).Coherent ∧
    (presenting (encode (initOf .rsx 42)) State.reset).Coherent := by unfold State.Coherent; decide

theorem witness_InitErasesThePast :
    (presenting (encode (initOf .rsx 42)) otherPast).halt = false ∧
    (presenting (encode (initOf .rsx 42)) State.reset).halt = false ∧
    (presenting (encode (initOf .rsx 42)) otherPast).inputs = .command (encode (initOf .rsx 42)) ⟨0x100, 8⟩ :: [] ∧
    (presenting (encode (initOf .rsx 42)) State.reset).inputs = .command (encode (initOf .rsx 42)) ⟨0x100, 8⟩ :: [] :=
  ⟨rfl, rfl, rfl, rfl⟩

theorem witness_AdvReturnsPostStepSums : afterRsx42.gen = some ⟨.rsx, rsx42⟩ ∧ afterSxa42.gen = some ⟨.sxa, sxa42⟩ :=
  ⟨rfl, rfl⟩

/-- Registers that agree on one stream and differ on the other, for each stream. -/
theorem witness_StreamsDoNotInteract :
    w0 rsx42.s0 = w0 rsxMixed.s0 ∧ w0 rsx42.s1 = w0 rsxMixed.s1 ∧ rsx42 ≠ rsxMixed ∧
    w1 rsx42Next.s0 = w1 rsxMixed.s0 ∧ w1 rsx42Next.s1 = w1 rsxMixed.s1 ∧ rsx42Next ≠ rsxMixed := by decide +kernel

/-- Two entropies that differ in bit 8 of a lane, the highest discarded bit. -/
theorem witness_LowNineBitsAreDiscarded :
    (∀ k, k < 4 → (lane k 0x0e27d4a5db876f833683c8998bfd7d5b).toNat / 2 ^ 9 =
      (lane k 0x0e27d4a5db876f833683c8998bfd7c5b).toNat / 2 ^ 9) ∧
    (0x0e27d4a5db876f833683c8998bfd7d5b : Bits128) ≠ 0x0e27d4a5db876f833683c8998bfd7c5b := by decide +kernel

/-- In contract at both ends; 0x33800000 is 2^-24, and 0x34400000 is a tie (section 2.6). -/
theorem witness_ThresholdIsRoundedProbability :
    probOk 0#32 = true ∧ probOk 0x33800000#32 = true ∧ f32 0x33800000#32 ≤ 1 / 2 ^ 24 ∧
    probOk 0x3F7FFFFF#32 = true ∧ probOk 0x3F800000#32 = true ∧ probOk 0x34400000#32 = true ∧
    |(thresh 0x34400000#32 : ℚ) - f32 0x34400000#32 * 2 ^ 23| = 1 / 2 := by decide +kernel

/-- Lanes just below and at the threshold of p = 0.5. -/
theorem witness_TrialIsStrictLessThan :
    probOk 0x3F000000#32 = true ∧ belowThreshold cfg (thresh 0x3F000000#32) 0x7FFFFFFF#32 = true ∧
    belowThreshold cfg (thresh 0x3F000000#32) 0x80000000#32 = false := by decide +kernel

/-- Counts where the clauses of the conversion meet, and a tie (section 2.7). -/
theorem witness_CountConversionIsNearest :
    (2 ^ 23 < 2 ^ 31 ∧ 2 ^ 23 ≤ 2 ^ 24) ∧ cnt2f (2 ^ 24) = 0x4b800000 ∧ 16777217 < 2 ^ 31 ∧
    |f32 (cnt2f 16777217) - (16777217 : Nat)| = (2 ^ (Nat.log2 16777217 - 23) : ℚ) / 2 := by decide +kernel

theorem witness_UniformFillWritesConvertedAdvances :
    afterRsx42.gen = some ⟨.rsx, rsx42⟩ ∧ afterSxa42.gen = some ⟨.sxa, sxa42⟩ ∧
    lengthWf 8 = true ∧ (8 : Bits32).toNat ≤ afterRsx42.buf.cap ∧ (8 : Bits32).toNat ≤ afterSxa42.buf.cap := by
  decide +kernel

theorem witness_UniformFillStaysInUnitInterval :
    ∃ t, exec (filluOf .rsx 8) afterRsx42 = .next t ∧ t.halt = false := exists_of_completes (by decide +kernel)

theorem witness_BinomialFillWritesSuccessCounts :
    afterRsx42.gen = some ⟨.rsx, rsx42⟩ ∧ afterSxa42.gen = some ⟨.sxa, sxa42⟩ ∧
    lengthWf 8 = true ∧ trialsWf 0x7FFFFFFF = true ∧ trialsWf 0 = true ∧ probWf 0x3F800000 = true ∧
    probWf 0x80000000 = true ∧ (8 : Bits32).toNat ≤ afterRsx42.buf.cap ∧ (8 : Bits32).toNat ≤ afterSxa42.buf.cap := by
  decide +kernel

theorem witness_BinomialFillStaysBelowTrialCount :
    ∃ t, exec (fillbOf .sxa 3 0x3F000000 8) afterSxa42 = .next t ∧ t.halt = false :=
  exists_of_completes (by decide +kernel)

/-- The clause for N = 0. -/
theorem witness_BinomialFillDegenerateCases_no_trial :
    afterRsx42.gen = some ⟨.rsx, rsx42⟩ ∧ ∃ t, exec (fillbOf .rsx 0 0x3F000000 4) afterRsx42 = .next t ∧ t.halt = false :=
  ⟨rfl, exists_of_completes (by decide +kernel)⟩

/-- The clause for p ≤ 2^-24, at its boundary. -/
theorem witness_BinomialFillDegenerateCases_zero :
    f32 0x33800000#32 ≤ 1 / 2 ^ 24 ∧
    ∃ t, exec (fillbOf .rsx 4 0x33800000 4) afterRsx42 = .next t ∧ t.halt = false :=
  ⟨by decide +kernel, exists_of_completes (by decide +kernel)⟩

/-- The clause for p = 1 and the greatest p below it. -/
theorem witness_BinomialFillDegenerateCases_one :
    (∃ t, exec (fillbOf .sxa 4 0x3F800000 4) afterSxa42 = .next t ∧ t.halt = false) ∧
    ∃ t, exec (fillbOf .sxa 4 0x3F7FFFFF 4) afterSxa42 = .next t ∧ t.halt = false :=
  ⟨exists_of_completes (by decide +kernel), exists_of_completes (by decide +kernel)⟩

/-- Trial counts at and just above the `TRIALS_MAX` of REF. -/
theorem witness_TrialsMaxDecidesAdmission :
    afterRsx42.gen = some ⟨.rsx, rsx42⟩ ∧ lengthWf 4 = true ∧ trialsWf 16777216 = true ∧ trialsWf 16777217 = true ∧
    probWf 0x3F000000 = true ∧ (4 : Bits32).toNat ≤ afterRsx42.buf.cap ∧
    (16777216 : Bits32).toNat ≤ ref.trialsMax ∧ ref.trialsMax < (16777217 : Bits32).toNat := by decide +kernel

theorem witness_BeatsLandAtTheirPositions :
    fillLen (.filluRsx 8) = some 8 ∧ ∃ t, exec (.filluRsx 8) afterRsx42 = .next t ∧ t.halt = false :=
  ⟨rfl, exists_of_completes (by decide +kernel)⟩

/-- The halves and the whole of `fillb.rsx 3, 0.5, 8` and of `fillu.rsx 8`: all hypotheses of the composition, as one
Boolean. -/
def composes (mk : Bits32 → Instr) (s : State) : Bool :=
  (nextState? (exec (mk 4) s)).any (fun t1 => !t1.halt &&
    completes (exec (mk 4) { t1 with buf := ⟨s.buf.base + 4 * (4 : Bits32).toNat, s.buf.cap - (4 : Bits32).toNat⟩ }) &&
    completes (exec (mk (4 + 4)) s))

theorem witness_FillsCompose :
    (4 : Bits32).toNat + (4 : Bits32).toNat < 2 ^ 32 ∧ composes (filluOf .rsx) afterRsx42 = true ∧
    composes (fillbOf .rsx 3 0x3F000000) afterRsx42 = true := by decide +kernel

theorem witness_UniformFillPrefixIgnoresLength :
    (∃ t1, exec (filluOf .sxa 4) afterSxa42 = .next t1 ∧ t1.halt = false) ∧
    ∃ t2, exec (filluOf .sxa 8) afterSxa42 = .next t2 ∧ t2.halt = false :=
  ⟨exists_of_completes (by decide +kernel), exists_of_completes (by decide +kernel)⟩

/-- Position 1 with stream A shared, position 2 with stream B shared. -/
theorem witness_PositionsDependOnOneStream :
    fillLen (.filluRsx 4) = some 4 ∧ (blockWith .rsx rsxMixed).buf = afterRsx42.buf ∧
    completes (exec (.filluRsx 4) afterRsx42) = true ∧ completes (exec (.filluRsx 4) (blockWith .rsx rsxMixed)) = true ∧
    completes (exec (.filluRsx 4) (blockWith .rsx rsx42Next)) = true ∧
    (1 < (4 : Bits32).toNat ∧ 1 % 4 < 2 ∧ streamA rsx42 = streamA rsxMixed) ∧
    (2 < (4 : Bits32).toNat ∧ 2 ≤ 2 % 4 ∧ streamB rsx42Next = streamB rsxMixed) := by decide +kernel

/-- The three draws from the all-zero state, the binomial fill on both sides of a threshold of 0. -/
theorem witness_ZeroStateDrawsZeroEntropy :
    isInit .advSxa = false ∧ isInit (.filluSxa 4) = false ∧ isInit (.fillbSxa 4 0x3F000000 4) = false ∧
    completes (exec .advSxa (blockWith .sxa Regs.zero)) = true ∧
    completes (exec (.filluSxa 4) (blockWith .sxa Regs.zero)) = true ∧
    completes (exec (.fillbSxa 4 0x3F000000 4) (blockWith .sxa Regs.zero)) = true ∧
    completes (exec (.fillbSxa 4 0 4) (blockWith .sxa Regs.zero)) = true := by decide +kernel

/-- A draw of the other family, a draw before any `INIT`, and an `INIT`. -/
theorem witness_DrawsFaultOnFamilyMismatch :
    (isInit .advSxa = false ∧ afterRsx42.fam ≠ famCode (family .advSxa)) ∧
    (isInit (.filluRsx 4) = false ∧ State.reset.fam ≠ famCode (family (.filluRsx 4))) ∧
    isInit (.initSxa 7) = true := by decide +kernel

theorem witness_FillsFaultOnBadLength :
    (fillLen (.filluRsx 0) = some 0 ∧ afterRsx42.fam = famCode (family (.filluRsx 0))) ∧
    (fillLen (.fillbSxa 4 0x3F000000 6) = some 6 ∧ afterSxa42.fam = famCode (family (.fillbSxa 4 0x3F000000 6)) ∧
      (6 : Bits32).toNat % 4 ≠ 0) := by decide +kernel

/-- The greatest and the least negative trial count. -/
theorem witness_BinomialFillFaultsOnNegativeTrials :
    afterSxa42.fam = famCode .sxa ∧ lengthWf 4 = true ∧ (0xFFFFFFFF : Bits32).toInt < 0 ∧
    (0x80000000 : Bits32).toInt < 0 := by decide +kernel

/-- A NaN, the greatest negative value and the least value above 1 (section 2.6). -/
theorem witness_BinomialFillFaultsOnBadProbability :
    afterRsx42.fam = famCode .rsx ∧ lengthWf 4 = true ∧ 0 ≤ (0 : Bits32).toInt ∧ f32Finite 0x7FC00000#32 = false ∧
    f32 0x80000001#32 < 0 ∧ 1 < f32 0x3F800001#32 := by decide +kernel

/-- V-F13, V-F10 to V-F12 and V-F14: each cause as the first. -/
theorem witness_FirstCauseIsReported :
    (presenting 0x3FC00000FFFFFFFF0000000600000014 afterRsx42).halt = false ∧
    firstCause afterRsx42 0x00000000000000000000000600000023 = some .illegalCmd ∧
    firstCause afterRsx42 0x3FC00000FFFFFFFF0000000600000014 = some .familyMismatch ∧
    firstCause afterRsx42 0x3FC00000FFFFFFFF0000000600000004 = some .badLength ∧
    firstCause afterRsx42 0x3FC00000FFFFFFFF0000000400000004 = some .badTrials ∧
    firstCause afterRsx42 0x3FC00000000000000000000400000004 = some .badProb := by decide +kernel

/-- A descriptor without a cause, with a buffer that holds it and with one too short. -/
theorem witness_DescriptorsWithoutCauseComplete :
    (presenting 0x00000000000000000000000800000003 afterRsx42).halt = false ∧
    firstCause afterRsx42 0x00000000000000000000000800000003 = none ∧
    decodeTableWord 128 0x00000000000000000000000800000003 = some (.filluRsx 8) ∧ (8 : Bits32).toNat ≤ 8 ∧
    firstCause afterRsx42 0x00000000000000000000000C00000003 = none ∧
    decodeTableWord 128 0x00000000000000000000000C00000003 = some (.filluRsx 12) ∧ ¬ (12 : Bits32).toNat ≤ 8 := by
  decide +kernel

/-- V-F2. -/
theorem witness_FaultEntryWritesThreeRegisters :
    (presenting 0x00000000000000000000000400000013 afterRsx42).halt = false ∧
    (nextState? (step (presenting 0x00000000000000000000000400000013 afterRsx42))).map (·.halt) = some true := by
  decide +kernel

/-- A halted block with a command waiting, and one with a reset. -/
theorem witness_HaltedBlockLeavesOnlyByReset :
    (presenting 0x00000000000000000000000000000002 haltedBlock).halt = true ∧
    (nextState? (step (presenting 0x00000000000000000000000000000002 haltedBlock))).isNone = true ∧
    { haltedBlock with inputs := [.reset] }.halt = true ∧
    completes (step { haltedBlock with inputs := [.reset] }) = true := by decide +kernel

theorem bufferHolds_of_le {b : Buffer} {i : Instr} {len : Bits32} (hi : fillLen i = some len) (h : len.toNat ≤ b.cap) :
    bufferHolds b i := fun l hl => by rw [hi] at hl; cases hl; exact h

theorem bufferHolds_of_none {b : Buffer} {i : Instr} (hi : fillLen i = none) : bufferHolds b i := fun l hl => by
  rw [hi] at hl; cases hl

/-- The hypotheses of completion for each of the eight commands. -/
theorem witness_WellFormedCommandsComplete_rsx :
    (isInit (.initRsx 0) = true ∧ Instr.wf (.initRsx 0) = true ∧ bufferHolds afterSxa42.buf (.initRsx 0)) ∧
    (afterRsx42.fam = famCode (family .advRsx) ∧ Instr.wf .advRsx = true ∧ bufferHolds afterRsx42.buf .advRsx) ∧
    (afterRsx42.fam = famCode (family (.filluRsx 8)) ∧ Instr.wf (.filluRsx 8) = true ∧
      bufferHolds afterRsx42.buf (.filluRsx 8)) ∧
    (afterRsx42.fam = famCode (family (.fillbRsx 5 0x3E800000 8)) ∧ Instr.wf (.fillbRsx 5 0x3E800000 8) = true ∧
      bufferHolds afterRsx42.buf (.fillbRsx 5 0x3E800000 8)) :=
  ⟨⟨rfl, rfl, bufferHolds_of_none rfl⟩, ⟨rfl, rfl, bufferHolds_of_none rfl⟩,
    ⟨rfl, by decide +kernel, bufferHolds_of_le rfl (by decide)⟩,
    ⟨rfl, by decide +kernel, bufferHolds_of_le rfl (by decide)⟩⟩

theorem witness_WellFormedCommandsComplete_sxa :
    (isInit (.initSxa 0) = true ∧ Instr.wf (.initSxa 0) = true ∧ bufferHolds afterRsx42.buf (.initSxa 0)) ∧
    (afterSxa42.fam = famCode (family .advSxa) ∧ Instr.wf .advSxa = true ∧ bufferHolds afterSxa42.buf .advSxa) ∧
    (afterSxa42.fam = famCode (family (.filluSxa 8)) ∧ Instr.wf (.filluSxa 8) = true ∧
      bufferHolds afterSxa42.buf (.filluSxa 8)) ∧
    (afterSxa42.fam = famCode (family (.fillbSxa 5 0x3E800000 8)) ∧ Instr.wf (.fillbSxa 5 0x3E800000 8) = true ∧
      bufferHolds afterSxa42.buf (.fillbSxa 5 0x3E800000 8)) :=
  ⟨⟨rfl, rfl, bufferHolds_of_none rfl⟩, ⟨rfl, rfl, bufferHolds_of_none rfl⟩,
    ⟨rfl, by decide +kernel, bufferHolds_of_le rfl (by decide)⟩,
    ⟨rfl, by decide +kernel, bufferHolds_of_le rfl (by decide)⟩⟩

/-- A waiting step, a draw, an `INIT`, an illegal descriptor, a reset and a cut command. -/
theorem witness_FamIsWrittenOnlyByInitAndReset :
    completes (step afterRsx42) = true ∧
    completes (step (presenting 0x00000000000000000000000000000002 afterRsx42)) = true ∧
    decodeTableWord 128 0x00000000000000000000000000000002 = some .advRsx ∧
    completes (step (presenting 0x000000000000002A0000000000000011 afterRsx42)) = true ∧
    decodeTableWord 128 0x000000000000002A0000000000000011 = some (.initSxa 42) ∧
    (nextState? (step (presenting 0x00000000000000000000000000000005 afterRsx42))).isSome = true ∧
    (decodeTableWord 128 0x00000000000000000000000000000005).isNone = true ∧
    completes (step { afterRsx42 with inputs := [.reset] }) = true ∧
    completes (step { afterRsx42 with inputs := [.commandCut 0x00000000000000000000000000000002 ⟨0x100, 8⟩ 0 0] }) = true := by
  decide +kernel

/-- A step that waits, one that completes, one that faults, and a halted block that is reset between commands and in one. -/
theorem witness_FcmdIsWrittenOnlyByFaultAndReset :
    completes (step afterRsx42) = true ∧
    completes (step (presenting 0x00000000000000000000000000000002 afterRsx42)) = true ∧
    (nextState? (step (presenting 0x00000000000000000000000000000012 afterRsx42))).map (·.halt) = some true ∧
    completes (step { haltedBlock with inputs := [.reset] }) = true ∧
    completes (step { haltedBlock with inputs := [.commandCut 0x00000000000000000000000000000002 ⟨0x100, 8⟩ 0 0] }) = true := by
  decide +kernel

theorem witness_ResetLeavesTheTableOfR33 : { haltedBlock with inputs := [.reset] }.inputs = .reset :: [] := rfl

/-- `afterRsx42` with a command cut after one whole beat and the element of lane 2 of the next. -/
def cutting (d : Bits128) (s : State) : State := { s with inputs := [.commandCut d ⟨0x100, 8⟩ 1 0b0100] }

/-- Fills of two groups cut in their second: group 0 whole, and of group 1 only position 6. -/
theorem witness_ResetKeepsWhatACutFillWrote_fills :
    ((cutting (encode (filluOf .rsx 8)) afterRsx42).halt = false ∧ afterRsx42.gen = some ⟨.rsx, rsx42⟩ ∧
      (decode (encode (filluOf .rsx 8))).toOption = some (filluOf .rsx 8) ∧
      firstCause (cutting (encode (filluOf .rsx 8)) afterRsx42) (encode (filluOf .rsx 8)) = none ∧
      (8 : Bits32).toNat ≤ 8) ∧
    ((decode (encode (fillbOf .rsx 3 0x3F000000 8))).toOption = some (fillbOf .rsx 3 0x3F000000 8) ∧
      firstCause (cutting (encode (fillbOf .rsx 3 0x3F000000 8)) afterRsx42) (encode (fillbOf .rsx 3 0x3F000000 8)) = none) ∧
    completes (step (cutting (encode (filluOf .rsx 8)) afterRsx42)) = true ∧
    completes (step (cutting (encode (fillbOf .rsx 3 0x3F000000 8)) afterRsx42)) = true := by decide +kernel

theorem witness_ResetKeepsWhatACutFillWrote_positions :
    (3 < 8 ∧ hadLanded 1 0b0100 3) ∧ (6 < 8 ∧ hadLanded 1 0b0100 6) ∧ (5 < 8 ∧ ¬ hadLanded 1 0b0100 5) ∧
    (7 < 8 ∧ ¬ hadLanded 1 0b0100 7) := by unfold hadLanded; decide

/-- An `INIT` and an `ADV` cut, a draw of the other family cut, and a fill whose buffer is too short. -/
theorem witness_ResetKeepsWhatACutFillWrote_others :
    completes (step (cutting (encode (initOf .sxa 42)) afterRsx42)) = true ∧
    completes (step (cutting (encode (advOf .rsx)) afterRsx42)) = true ∧
    firstCause afterRsx42 (encode (filluOf .sxa 8)) = some .familyMismatch ∧
    completes (step (cutting (encode (filluOf .sxa 8)) afterRsx42)) = true ∧
    firstCause afterRsx42 (encode (filluOf .rsx 12)) = none ∧ ¬ (12 : Bits32).toNat ≤ 8 := by decide +kernel

/-- V-B3 cut after group 0 and one element of group 1: counts 2 2 2 1, and of 1 2 2 3 only the third. -/
theorem test_reset_cuts_binomial_fill :
    elements 8 (step (cutting (encode (fillbOf .rsx 3 0x3F000000 8)) afterRsx42)) =
      [some 0x40000000, some 0x40000000, some 0x40000000, some 0x3f800000, none, none, some 0x40000000, none] := by
  decide +kernel

/-- A fill, in memories that agree at one address and differ at another. -/
theorem witness_MemoryContentsInfluenceNothing :
    Memory.read [(0x101, 5), (0x200, 0)] 0x200 = Memory.read [(0x101, 6), (0x200, 0)] 0x200 ∧
    Memory.read [(0x101, 5), (0x200, 0)] 0x101 ≠ Memory.read [(0x101, 6), (0x200, 0)] 0x101 ∧
    ∃ t, step (presenting 0x00000000000000000000000400000003 { afterRsx42 with mem := [(0x101, 5), (0x200, 0)] }) = .next t ∧
      t.halt = false :=
  ⟨by decide, by decide, exists_of_completes (by decide +kernel)⟩

/-- States that are not reset meet the invariants, and a command runs from them. -/
theorem witness_EveryStepKeepsStatusCoherent :
    (presenting 0x00000000000000000000000400000003 afterRsx42).Coherent ∧ haltedBlock.Coherent ∧
    ∃ t, step (presenting 0x00000000000000000000000400000003 afterRsx42) = .next t ∧ t.halt = false :=
  ⟨by unfold State.Coherent; decide, by unfold State.Coherent; decide, exists_of_completes (by decide +kernel)⟩

theorem witness_EveryStepKeepsMemoryCanonical :
    (presenting 0x00000000000000000000000400000003 { afterRsx42 with mem := [(0x101, 5), (0x200, 0)] }).MemoryCanonical ∧
    ∃ t, step (presenting 0x00000000000000000000000400000003 { afterRsx42 with mem := [(0x101, 5), (0x200, 0)] }) = .next t ∧
      t.halt = false :=
  ⟨by unfold State.MemoryCanonical; decide, exists_of_completes (by decide +kernel)⟩

theorem witness_EveryStepKeepsStreamsOffset :
    (presenting 0x00000000000000000000000000000002 afterRsx42).StreamsOffset cfg ∧
    ∃ t, step (presenting 0x00000000000000000000000000000002 afterRsx42) = .next t ∧ t.halt = false :=
  ⟨fun g hg => by cases hg; exact witness_AdvancesKeepStreamOffset.1, exists_of_completes (by decide +kernel)⟩

/-- The byte just after the four elements, and one inside them, for a command and for a cut one. -/
theorem witness_StepsWriteOnlyTheBoundBuffer :
    (∃ t, step (presenting 0x00000000000000000000000400000003 afterRsx42) = .next t ∧ t.halt = false) ∧
    (∃ t, step { afterRsx42 with inputs := [.commandCut 0x00000000000000000000000400000003 ⟨0x100, 8⟩ 0 0b1000] } = .next t ∧
      t.halt = false) ∧
    ¬ inBuffer ⟨0x100, 8⟩ (BitVec.extractLsb' 32 32 0x00000000000000000000000400000003#128).toNat 0x110 ∧
    inBuffer ⟨0x100, 8⟩ (BitVec.extractLsb' 32 32 0x00000000000000000000000400000003#128).toNat 0x10F :=
  ⟨exists_of_completes (by decide +kernel), exists_of_completes (by decide +kernel),
    by unfold inBuffer; decide +kernel, by unfold inBuffer; decide +kernel⟩

end Sys2Proof.Tests
end

section
/-! The two streams of an advance, each on its own (R14, R100, R101), and the constraints on a configuration (R9). -/

namespace Sys2Proof

/-- Of the constraints of R9 only the bound on trial counts speaks of `TRIALS_MAX`, so another setting below that bound
keeps a configuration well-formed. -/
theorem Cfg.wf_setTrialsMax {c : Cfg} (h : c.wf = true) {n : Nat} (hn : n < 2 ^ 31) :
    Cfg.wf { c with trialsMax := n } = true := by
  simp only [Cfg.wf, Bool.and_eq_true, decide_eq_true_eq] at h ⊢
  exact ⟨h.left, hn⟩

namespace Machine

theorem ref_wf : ref.wf = true := by decide

/-- Settles O60: REF meets the constraints by evaluation, and the machine's setting of `TRIALS_MAX` keeps them. -/
theorem machineConfigurationIsWellFormed : Obligations.MachineConfigurationIsWellFormed :=
  ⟨ref_wf, Cfg.wf_setTrialsMax ref_wf (by decide), rfl⟩

theorem streamA_vadv (c : Cfg) (f : Family) (r : Regs) : streamA (vadv c f r).1 = sstep c f (streamA r) :=
  streamA_next c f r

theorem streamB_vadv (c : Cfg) (f : Family) (r : Regs) : streamB (vadv c f r).1 = sstep c f (streamB r) :=
  streamB_next c f r

/-- Word 0 of the entropy is the sum of stream A's words: no carry enters from stream B (R14, R101). -/
theorem w0_entropy (r : Regs) : w0 (entropy r) = (streamA r).x0 + (streamA r).x1 :=
  w0_lanewise64 (· + ·) r.s0 r.s1

/-- Word 1 of the entropy is the sum of stream B's words: no carry enters from stream A (R14, R101). -/
theorem w1_entropy (r : Regs) : w1 (entropy r) = (streamB r).x0 + (streamB r).x1 :=
  w1_lanewise64 (· + ·) r.s0 r.s1

theorem w0_vadv_entropy (c : Cfg) (f : Family) (r : Regs) :
    w0 (vadv c f r).2 = (sstep c f (streamA r)).x0 + (sstep c f (streamA r)).x1 := by
  rw [vadv, w0_entropy, streamA_next]

theorem w1_vadv_entropy (c : Cfg) (f : Family) (r : Regs) :
    w1 (vadv c f r).2 = (sstep c f (streamB r)).x0 + (sstep c f (streamB r)).x1 := by
  rw [vadv, w1_entropy, streamB_next]

/-- Settles O18: each stream after an advance, and its word of the entropy, is a function of that stream before it. -/
theorem streamsDoNotInteract : Obligations.StreamsDoNotInteract := by
  unfold Obligations.StreamsDoNotInteract
  intro c f r q
  constructor
  · intro h0 h1
    have before : streamA r = streamA q := by rw [streamA, streamA, h0, h1]
    have after : streamA (vadv c f r).1 = streamA (vadv c f q).1 := by rw [streamA_vadv, streamA_vadv, before]
    exact ⟨congrArg Scalar.x0 after, congrArg Scalar.x1 after, by rw [w0_vadv_entropy, w0_vadv_entropy, before]⟩
  · intro h0 h1
    have before : streamB r = streamB q := by rw [streamB, streamB, h0, h1]
    have after : streamB (vadv c f r).1 = streamB (vadv c f q).1 := by rw [streamB_vadv, streamB_vadv, before]
    exact ⟨congrArg Scalar.x0 after, congrArg Scalar.x1 after, by rw [w1_vadv_entropy, w1_vadv_entropy, before]⟩

end Machine

end Sys2Proof
end

section
/-! The descriptor a fault records, and everything a step can do, one case per action of the host (R27, R30, R147, R148,
R165). -/

namespace Sys2Proof

/-- The two forms of a command differ in the family bit only (R61, R63). -/
theorem encode_byFamilyBit (d : Bits128) {rsxForm sxaForm : Instr} {op : BitVec 4} {len : Bits32} {arg : Bits64}
    (hr : encode rsxForm = packDescriptor op 0#1 len arg) (hs : encode sxaForm = packDescriptor op 1#1 len arg) :
    encode (byFamilyBit d rsxForm sxaForm) = packDescriptor op (fieldF d) len arg := by
  obtain hf | hf := BitVec.eq_zero_or_eq_one (fieldF d)
  · rw [byFamilyBit, if_pos hf, hf, hr]
  · rw [byFamilyBit, if_neg (by rw [hf]; decide), hf, hs]

/-- A descriptor that decodes is the encoding of its command, so a fault records the presented descriptor (R63, R147;
log entry 10). -/
theorem encode_of_decode {d : Bits128} {i : Instr} (h : decode d = .ok i) : encode i = d := by
  unfold decode at h
  split at h
  · cases h
  rename_i hrsv
  rw [← pack_fields d (not_not.mp hrsv)]
  split at h
  · rename_i hop
    split at h <;> cases h
    rename_i hlen
    rw [hop, not_not.mp hlen]
    exact encode_byFamilyBit d rfl rfl
  split at h
  · rename_i hop
    split at h
    · cases h
    split at h <;> cases h
    rename_i hlen harg
    rw [hop, not_not.mp hlen, not_not.mp harg]
    exact encode_byFamilyBit d rfl rfl
  split at h
  · rename_i hop
    split at h <;> cases h
    rename_i harg
    rw [hop, not_not.mp harg]
    exact encode_byFamilyBit d rfl rfl
  split at h <;> cases h
  rename_i hop
  rw [hop, ← packBinomialArg_halves d]
  exact encode_byFamilyBit d rfl rfl

namespace Machine

/-- `INIT.f` is the command its descriptor decodes to (R63). -/
theorem decode_encode_initOf (f : Family) (seed : Bits64) : decode (encode (initOf f seed)) = .ok (initOf f seed) := by
  cases f <;> simp [initOf, encode, decode, byFamilyBit]

/-! ### What a completed command leaves alone -/

section
variable {s t : State} {i : Instr}

theorem Effect.done (h : Effect s i t) : t.done = true := by cases h <;> rfl

theorem Effect.halt (h : Effect s i t) : t.halt = s.halt := by cases h <;> rfl

theorem Effect.cause (h : Effect s i t) : t.cause = s.cause := by cases h <;> rfl

theorem Effect.fcmd (h : Effect s i t) : t.fcmd = s.fcmd := by cases h <;> rfl

/-- A completed command leaves a generator state of its own family (R23, R143). -/
theorem Effect.fam (h : Effect s i t) : t.fam = famCode (family i) := by
  cases h with
  | init f seed => rw [family_initOf]; rfl
  | adv f r => rw [family_advOf]; rfl
  | fillu f r len => rw [family_filluOf]; rfl
  | fillb f r trials prob len => rw [family_fillbOf]; rfl

/-- A draw that completes found a state of its own family (R143). -/
theorem Effect.fam_before (h : Effect s i t) (hi : isInit i = false) : s.fam = famCode (family i) := by
  cases h with
  | init f seed => rw [isInit_initOf] at hi; cases hi
  | adv f r hr => rw [family_advOf, fam_gen_some s _ hr]
  | fillu f r len hr => rw [family_filluOf, fam_gen_some s _ hr]
  | fillb f r trials prob len hr => rw [family_fillbOf, fam_gen_some s _ hr]

end

/-- `INIT.f` raises nothing and is never refused (R93). -/
theorem exec_of_isInit {i : Instr} (s : State) (hi : isInit i = true) : ∃ t, exec i s = .next t ∧ Effect s i t := by
  obtain ⟨f, seed, rfl⟩ | ⟨f, rfl⟩ | ⟨f, len, rfl⟩ | ⟨f, trials, prob, len, rfl⟩ := instr_cases i
  · exact ⟨_, exec_initOf f seed s, .init f seed⟩
  · rw [isInit_advOf] at hi; cases hi
  · rw [isInit_filluOf] at hi; cases hi
  · rw [isInit_fillbOf] at hi; cases hi

/-- An accepted descriptor that has a next state completes as its command, or raises a fault that records it. A descriptor
of `INIT.f` never faults (R93). -/
theorem runDescriptor_next {d : Bits128} {s t : State} (h : runDescriptor d s = .next t) :
    (∃ i, decode d = .ok i ∧ Effect s i t) ∨
    (∃ k, k ≠ .noFault ∧ t = raiseFault k d s ∧ ∀ i, decode d = .ok i → isInit i = false) := by
  unfold runDescriptor at h
  cases hd : decode d with
  | error e =>
    rw [hd] at h
    cases h
    exact .inr ⟨.illegalCmd, by decide, rfl, fun i hi => by cases hi⟩
  | ok i =>
    rw [hd] at h
    cases hi : isInit i with
    | true =>
      obtain ⟨u, hu, he⟩ := exec_of_isInit s hi
      cases hu.symm.trans h
      exact .inl ⟨i, rfl, he⟩
    | false =>
      obtain ⟨u, hu, he⟩ | ⟨k, hk, hu⟩ | hu := exec_cases i s
      · cases hu.symm.trans h
        exact .inl ⟨i, rfl, he⟩
      · cases hu.symm.trans h
        rw [encode_of_decode hd]
        exact .inr ⟨k, hk, rfl, fun j hj => by cases hj; exact hi⟩
      · cases hu.symm.trans h

/-! ### One step -/

section
variable {s : State} {d : Bits128} {b : Buffer} {rest : List HostInput}

theorem step_idle (hh : s.halt = false) (hin : s.inputs = []) :
    step s = .next { s with result := none, burst := [], done := false } := by
  simp only [step, hin, idleStep, (cmdReady_iff s).mpr hh, if_true]

theorem step_reset (hin : s.inputs = .reset :: rest) : step s = .next (resetBlock rest s) := by
  simp only [step, hin]

theorem step_command (hh : s.halt = false) (hin : s.inputs = .command d b :: rest) :
    step s = runDescriptor d (acceptCommand b rest s) := by
  simp only [step, hin, (cmdReady_iff s).mpr hh, if_true]

theorem step_commandCut {k : Nat} {landed : BitVec 4} (hh : s.halt = false)
    (hin : s.inputs = .commandCut d b k landed :: rest) :
    step s = cutOutcome k landed rest (acceptCommand b rest s) (runDescriptor d (acceptCommand b rest s)) := by
  simp only [step, hin, (cmdReady_iff s).mpr hh, if_true]

end

/-- Everything a step that has a next state can do to the block: what it was and the state it leaves. -/
inductive StepEffect (s : State) : State → Prop where
  /-- Nothing is presented and the block waits (log entries 2, 9, 11). -/
  | waits (hin : s.inputs = []) (hh : s.halt = false) :
    StepEffect s { s with result := none, burst := [], done := false }
  /-- `rst`, between commands or while one runs; `m` is the memory it leaves (R165). -/
  | resets (rest : List HostInput) (m : List Host.Cell)
    (hin : s.inputs = .reset :: rest ∨ ∃ d b k l, s.inputs = .commandCut d b k l :: rest) :
    StepEffect s (resetBlock rest { s with mem := m })
  /-- A presented descriptor completes as its command (R30). -/
  | completes (d : Bits128) (b : Buffer) (rest : List HostInput) (i : Instr) (t : State)
    (hin : s.inputs = .command d b :: rest) (hh : s.halt = false) (hd : decode d = .ok i)
    (he : Effect (acceptCommand b rest s) i t) : StepEffect s t
  /-- A presented descriptor, of no `INIT`, faults (R147). -/
  | faults (d : Bits128) (b : Buffer) (rest : List HostInput) (k : Cause)
    (hin : s.inputs = .command d b :: rest) (hh : s.halt = false) (hk : k ≠ .noFault)
    (hi : ∀ i, decode d = .ok i → isInit i = false) : StepEffect s (raiseFault k d (acceptCommand b rest s))

theorem stepEffect_of_next {s t : State} (h : step s = .next t) : StepEffect s t := by
  obtain ⟨hin, hh, rfl⟩ | ⟨rest, hin, rfl⟩ | ⟨d, b, k, l, rest, hin, hcut⟩ | ⟨d, b, rest, hin, hh, hrun⟩ := step_cases h
  · exact .waits hin hh
  · exact .resets rest s.mem (.inl hin)
  · obtain ⟨_, rfl⟩ | ⟨_, u, _, rfl⟩ := hcut
    · exact .resets rest s.mem (.inr ⟨d, b, k, l, hin⟩)
    · exact .resets rest _ (.inr ⟨d, b, k, l, hin⟩)
  · obtain ⟨i, hd, he⟩ | ⟨k, hk, rfl, hi⟩ := runDescriptor_next hrun
    · exact .completes d b rest i t hin hh hd he
    · exact .faults d b rest k hin hh hk hi

end Machine

end Sys2Proof
end


section
/-! The offset between the streams: INIT makes it, an advance keeps it, and so does every step (R25, R91, R104). -/

namespace Sys2Proof.Machine

theorem sstepRsx_additive (c : Cfg) : Additive (sstepRsx c) := by
  intro u v
  have ht : (u.xor v).x0 ^^^ (u.xor v).x1 = (u.x0 ^^^ u.x1) ^^^ (v.x0 ^^^ v.x1) := by
    simp only [Scalar.xor]; ac_rfl
  simp only [sstepRsx, ht, rotl64_xor, BitVec.shiftLeft_xor_distrib]
  simp only [Scalar.xor, rotl64_xor, Scalar.mk.injEq]
  exact ⟨by ac_rfl, trivial⟩

theorem sstepSxa_additive (c : Cfg) : Additive (sstepSxa c) := by
  intro u v
  have hu : (u.xor v).x0 ^^^ ((u.xor v).x0 <<< c.sxaA) =
      (u.x0 ^^^ (u.x0 <<< c.sxaA)) ^^^ (v.x0 ^^^ (v.x0 <<< c.sxaA)) := by
    simp only [Scalar.xor, BitVec.shiftLeft_xor_distrib]; ac_rfl
  simp only [sstepSxa, hu, BitVec.ushiftRight_xor_distrib (u.x0 ^^^ (u.x0 <<< c.sxaA))]
  simp only [Scalar.xor, BitVec.ushiftRight_xor_distrib u.x1, Scalar.mk.injEq]
  exact ⟨trivial, by ac_rfl⟩

/-- Each scalar step is linear over the two-element field (R85). -/
theorem sstep_additive (c : Cfg) (f : Family) : Additive (sstep c f) := by
  cases f with
  | rsx => exact sstepRsx_additive c
  | sxa => exact sstepSxa_additive c

/-- The jump is a polynomial in the scalar step, so the two commute (R91, R104). -/
theorem jumpAhead_sstep (c : Cfg) (f : Family) (a : Scalar) :
    jumpAhead c f (sstep c f a) = sstep c f (jumpAhead c f a) := by
  rw [jumpAhead_eq_polyOp, jumpAhead_eq_polyOp, polyOp_comm (sstep_additive c f)]

theorem streamA_initRegs (c : Cfg) (f : Family) (seed : Bits64) : streamA (initRegs c f seed) = laneA c seed :=
  streamA_packStreams _ _

theorem streamB_initRegs (c : Cfg) (f : Family) (seed : Bits64) :
    streamB (initRegs c f seed) = jumpAhead c f (laneA c seed) :=
  streamB_packStreams _ _

/-- `INIT.f` makes the offset (R91, R92). -/
theorem lanesOffset_initRegs (c : Cfg) (f : Family) (seed : Bits64) : LanesOffset c ⟨f, initRegs c f seed⟩ := by
  rw [LanesOffset, streamA_initRegs, streamB_initRegs]

/-- An advance keeps the offset: it takes the same scalar step on both streams (R100, R104). -/
theorem LanesOffset.next {c : Cfg} {f : Family} {r : Regs} (h : LanesOffset c ⟨f, r⟩) :
    LanesOffset c ⟨f, next c f r⟩ := by
  unfold LanesOffset at h ⊢
  rw [streamA_next, streamB_next, h, jumpAhead_sstep]

theorem LanesOffset.advances {c : Cfg} {f : Family} {r : Regs} (h : LanesOffset c ⟨f, r⟩) (k : Nat) :
    LanesOffset c ⟨f, advances c f k r⟩ := by
  induction k with
  | zero => exact h
  | succ k ih => rw [advances_succ_last]; exact ih.next

/-- Settles O12: the jump is a polynomial in the scalar step, and the two commute because the step is linear. -/
theorem advancesKeepStreamOffset : Obligations.AdvancesKeepStreamOffset := by
  unfold Obligations.AdvancesKeepStreamOffset
  intro c f
  refine ⟨lanesOffset_initRegs c f, fun r h => h.next, fun seed k => ?_⟩
  rw [streamA_advances, streamB_advances, streamA_initRegs, streamB_initRegs]
  exact ⟨rfl, rfl⟩

/-- A command that completes leaves the offset: `INIT.f` makes it, and a draw only advances. -/
theorem Effect.streamsOffset {s t : State} {i : Instr} (h : Effect s i t) (hs : s.StreamsOffset cfg) :
    t.StreamsOffset cfg := by
  intro g hg
  cases h with
  | init f seed => cases hg; exact lanesOffset_initRegs cfg f seed
  | adv f r hr => cases hg; exact (hs _ hr).next
  | fillu f r len hr => cases hg; exact (hs _ hr).advances _
  | fillb f r trials prob len hr => cases hg; exact (hs _ hr).advances _

/-- Settles O58, by cases on what a step can do: waiting and a fault keep the generator state, a reset discards it. -/
theorem everyStepKeepsStreamsOffset : Obligations.EveryStepKeepsStreamsOffset := by
  unfold Obligations.EveryStepKeepsStreamsOffset
  intro s t hs hstep
  cases stepEffect_of_next hstep with
  | waits => exact hs
  | resets => intro g hg; cases hg
  | completes d b rest i t hin hh hd he => exact he.streamsOffset hs
  | faults => exact hs

end Sys2Proof.Machine
end

section
/-! The status side over every step: STATUS, FAM, FCMD and the ports (R23, R28, R29, R30), and reset (R33). -/

namespace Sys2Proof.Machine

/-- Above BUSY, STATUS is its other fields one after the other (R28). -/
theorem extractLsb'_status (s : State) {start : Nat} (len : Nat) (h : 1 ≤ start) : s.status.extractLsb' start len =
    (0#24 ++ s.cause.code ++ s.fam ++ BitVec.ofBool s.halt).extractLsb' (start - 1) len :=
  BitVec.extractLsb'_append_eq_of_le h

theorem status_busy (s : State) : s.status.extractLsb' 0 1 = 0#1 :=
  BitVec.extractLsb'_append_eq_right

theorem status_halt (s : State) : s.status.extractLsb' 1 1 = BitVec.ofBool s.halt := by
  rw [extractLsb'_status s 1 (by decide)]
  exact BitVec.extractLsb'_append_eq_right

theorem status_fam (s : State) : s.status.extractLsb' 2 2 = s.fam := by
  rw [extractLsb'_status s 2 (by decide), BitVec.extractLsb'_append_eq_of_le (by decide)]
  exact BitVec.extractLsb'_append_eq_right

theorem status_cause (s : State) : s.status.extractLsb' 4 4 = s.cause.code := by
  rw [extractLsb'_status s 4 (by decide), BitVec.extractLsb'_append_eq_of_le (by decide),
    BitVec.extractLsb'_append_eq_of_le (by decide)]
  exact BitVec.extractLsb'_append_eq_right

theorem status_high (s : State) : s.status.extractLsb' 8 24 = 0#24 := by
  rw [extractLsb'_status s 24 (by decide), BitVec.extractLsb'_append_eq_of_le (by decide),
    BitVec.extractLsb'_append_eq_of_le (by decide)]
  exact BitVec.extractLsb'_append_eq_left

/-- Settles O49, field by field. -/
theorem statusWordShowsItsFields : Obligations.StatusWordShowsItsFields := by
  unfold Obligations.StatusWordShowsItsFields
  intro s
  refine ⟨status_busy s, ?_, status_fam s, status_cause s, status_high s⟩
  rw [status_halt]
  cases s.halt <;> decide

/-- Settles O6: an accepted descriptor that decodes runs its command. -/
theorem stepRunsDecodedCommand : Obligations.StepRunsDecodedCommand := by
  unfold Obligations.StepRunsDecodedCommand
  intro s d b rest i hh hin hd
  rw [step_command hh hin, runDescriptor, hd]
  rfl

/-- Settles O7: an idle block waits, and at reset its ports are clear already. -/
theorem idleBlockChangesNoRegister : Obligations.IdleBlockChangesNoRegister := by
  unfold Obligations.IdleBlockChangesNoRegister
  exact ⟨fun s hh hin => step_idle hh hin, step_idle rfl rfl⟩

/-- `rst` leaves STATUS 0, whatever the block was doing (R33). -/
theorem resetBlock_status (rest : List HostInput) (s : State) : (resetBlock rest s).status = 0#32 :=
  status_eq_zero _ (resetBlock_fam rest s) (resetBlock_halt rest s) (resetBlock_cause rest s)

/-- Settles O52, register by register. -/
theorem resetLeavesTheTableOfR33 : Obligations.ResetLeavesTheTableOfR33 := by
  unfold Obligations.ResetLeavesTheTableOfR33
  refine ⟨⟨rfl, status_eq_zero _ rfl rfl rfl, rfl, rfl, rfl, rfl, (cmdReady_iff _).mpr rfl⟩, fun s rest hin => ?_⟩
  exact ⟨resetBlock rest s, step_reset hin, rfl, rfl, rfl, rfl, resetBlock_status rest s, rfl, rfl, rfl, rfl, rfl, rfl,
    (cmdReady_iff _).mpr rfl⟩

/-! ### Agreement of HALT, CAUSE, FCMD and the ports -/

/-- A block that is not halted, has no cause and shows nothing is in agreement. -/
theorem coherent_of_quiet {s : State} (hh : s.halt = false) (hc : s.cause = .noFault) (hf : s.fcmd = 0#128)
    (hr : s.result = none) (hb : s.burst = []) : s.Coherent :=
  ⟨fun _ => ⟨hc, hf⟩, fun h => absurd (hh.symm.trans h) Bool.false_ne_true, fun _ => ⟨hr, hb⟩⟩

/-- A command that completes in a block that is not halted keeps the agreement. -/
theorem Effect.coherent {s t : State} {i : Instr} (h : Effect s i t) (hh : s.halt = false) (hc : s.cause = .noFault)
    (hf : s.fcmd = 0#128) : t.Coherent :=
  ⟨fun _ => ⟨h.cause.trans hc, h.fcmd.trans hf⟩, fun ht => absurd (hh.symm.trans (h.halt.symm.trans ht)) Bool.false_ne_true,
    fun ht => absurd (ht.symm.trans h.done) Bool.false_ne_true⟩

/-- A fault with a cause, raised while nothing is on a port, leaves the agreement. -/
theorem raiseFault_coherent {k : Cause} (hk : k ≠ .noFault) (d : Bits128) {s : State} (hd : s.done = false)
    (hr : s.result = none) (hb : s.burst = []) : (raiseFault k d s).Coherent :=
  ⟨fun h => absurd h.symm Bool.false_ne_true, fun _ => ⟨hk, hd⟩, fun _ => ⟨hr, hb⟩⟩

/-- Settles O56, by cases on what a step can do. -/
theorem everyStepKeepsStatusCoherent : Obligations.EveryStepKeepsStatusCoherent := by
  unfold Obligations.EveryStepKeepsStatusCoherent
  intro s t hs hstep
  obtain ⟨running, -, -⟩ := hs
  cases stepEffect_of_next hstep with
  | waits hin hh => exact coherent_of_quiet hh (running hh).1 (running hh).2 rfl rfl
  | resets => exact coherent_of_quiet rfl rfl rfl rfl rfl
  | completes d b rest i t hin hh hd he => exact he.coherent hh (running hh).1 (running hh).2
  | faults d b rest k hin hh hk => exact raiseFault_coherent hk d rfl rfl rfl

/-- Settles O55: nothing is halted, listed or initialised at reset. -/
theorem resetMeetsTheInvariants : Obligations.ResetMeetsTheInvariants := by
  unfold Obligations.ResetMeetsTheInvariants
  exact ⟨coherent_of_quiet rfl rfl rfl rfl rfl, Memory.wf_reset, fun g hg => by cases hg⟩

/-! ### Who writes FAM and FCMD -/

theorem famCode_ne_three (f : Family) : famCode f ≠ 3#2 := by cases f <;> decide

theorem fam_ne_three (s : State) : s.fam ≠ 3#2 := by
  cases hg : s.gen with
  | none => rw [fam_gen_none s hg]; decide
  | some g => rw [fam_gen_some s g hg]; exact famCode_ne_three g.family

/-- Settles O50, by cases on what a step can do. -/
theorem famIsWrittenOnlyByInitAndReset : Obligations.FamIsWrittenOnlyByInitAndReset := by
  unfold Obligations.FamIsWrittenOnlyByInitAndReset
  intro s t
  refine ⟨fam_ne_three s, fun hstep => ?_⟩
  cases stepEffect_of_next hstep with
  | waits hin => simp [hin, State.fam]
  | resets rest m hin => obtain hin | ⟨d, b, k, l, hin⟩ := hin <;> simp [hin]
  | completes d b rest i t hin hh hd he =>
    have draw : isInit i = false → t.fam = s.fam := fun hi => he.fam.trans (he.fam_before hi).symm
    simpa [hin, hd] using And.intro (fun _ => he.fam) draw
  | faults d b rest k hin hh hk hi =>
    have same : (raiseFault k d (acceptCommand b rest s)).fam = s.fam := fam_of_gen _ _ rfl
    simp +contextual [hin, same, hi]

/-- Settles O51, by cases on what a step can do. -/
theorem fcmdIsWrittenOnlyByFaultAndReset : Obligations.FcmdIsWrittenOnlyByFaultAndReset := by
  unfold Obligations.FcmdIsWrittenOnlyByFaultAndReset
  intro s t hstep
  cases stepEffect_of_next hstep with
  | waits hin => simp [hin]
  | resets rest m hin => obtain hin | ⟨d, b, k, l, hin⟩ := hin <;> simp [hin]
  | completes d b rest i t hin hh hd he => simp [hin, he.done, he.fcmd, he.halt, he.cause]
  | faults d b rest k hin hh hk => simp [hin, hk]

end Sys2Proof.Machine
end

section
/-! Determinism (R94, R179): blocks that differ only in what the host cannot see of their past stay so over every step, and
`INIT` brings any two blocks there. -/

namespace Sys2Proof.Machine

/-- Two blocks with one future: what the block computes with and what it shows is the same in both. Memory, which it never
reads, and the host's count are free, and so are CAUSE and FCMD unless `flags` holds. -/
structure SameFuture (flags : Prop) (s t : State) : Prop where
  gen : s.gen = t.gen
  halt : s.halt = t.halt
  buf : s.buf = t.buf
  inputs : s.inputs = t.inputs
  result : s.result = t.result
  burst : s.burst = t.burst
  done : s.done = t.done
  status : flags → s.cause = t.cause ∧ s.fcmd = t.fcmd

section
variable {flags : Prop} {s t : State}

namespace SameFuture

theorem cmdReady (h : SameFuture flags s t) : s.cmdReady = t.cmdReady := by
  rw [cmdReady_eq_not_halt, cmdReady_eq_not_halt, h.halt]

theorem fam (h : SameFuture flags s t) : s.fam = t.fam := fam_of_gen _ _ h.gen

theorem shown (h : SameFuture flags s t) : s.shown = t.shown := by
  rw [State.shown, State.shown, h.result, h.burst, h.done]

/-- With CAUSE and FCMD the same, every port is (R30). -/
theorem ports (h : SameFuture True s t) : s.ports = t.ports := by
  obtain ⟨hc, hf⟩ := h.status trivial
  rw [State.ports, State.ports, State.status, State.status, h.shown, hc, h.fam, h.halt, hf]
  rfl

/-- A fault makes CAUSE and FCMD the same, whatever they were (R147). -/
theorem raiseFault (h : SameFuture flags s t) (k : Cause) (d : Bits128) :
    SameFuture flags (raiseFault k d s) (raiseFault k d t) :=
  { h with halt := rfl, status := fun _ => ⟨rfl, rfl⟩ }

theorem complete (h : SameFuture flags s t) : SameFuture flags (complete s) (complete t) :=
  { h with done := rfl }

theorem setGen (h : SameFuture flags s t) (f : Family) (r : Regs) : SameFuture flags (setGen f r s) (setGen f r t) :=
  { h with gen := rfl }

theorem deliverResult (h : SameFuture flags s t) (v : Bits128) :
    SameFuture flags (deliverResult v s) (deliverResult v t) :=
  { h with result := rfl }

theorem deliverBurst (h : SameFuture flags s t) (Vs : List Bits128) :
    SameFuture flags (deliverBurst Vs s) (deliverBurst Vs t) :=
  { h with burst := rfl }

theorem acceptCommand (h : SameFuture flags s t) (b : Buffer) (rest : List HostInput) :
    SameFuture flags (acceptCommand b rest s) (acceptCommand b rest t) :=
  { h with buf := rfl, inputs := rfl, result := rfl, burst := rfl, done := rfl }

theorem clearPorts (h : SameFuture flags s t) :
    SameFuture flags { s with result := none, burst := [], done := false }
      { t with result := none, burst := [], done := false } :=
  { h with result := rfl, burst := rfl, done := rfl }

end SameFuture

/-- After `rst` nothing is left of the past but memory and the host's count (R33). -/
theorem sameFuture_resetBlock (flags : Prop) (rest : List HostInput) (s t : State) :
    SameFuture flags (resetBlock rest s) (resetBlock rest t) :=
  ⟨rfl, rfl, rfl, rfl, rfl, rfl, rfl, fun _ => ⟨rfl, rfl⟩⟩

end

/-- Two outcomes of one kind: next states in a relation, or one reason to stop. -/
inductive SameOutcome (R : State → State → Prop) :
    Host.Outcome State Fault Refusal → Host.Outcome State Fault Refusal → Prop where
  | next {s t : State} (h : R s t) : SameOutcome R (.next s) (.next t)
  | fault (r : Fault) : SameOutcome R (.fault r) (.fault r)
  | refused (r : Refusal) : SameOutcome R (.refused r) (.refused r)

theorem SameOutcome.ite {R : State → State → Prop} {o o' p p' : Host.Outcome State Fault Refusal} (c : Prop) [Decidable c]
    (ho : SameOutcome R o o') (hp : SameOutcome R p p') :
    SameOutcome R (if c then o else p) (if c then o' else p') := by
  split
  · exact ho
  · exact hp

section
variable {flags : Prop} {s t : State}

theorem exec_sameFuture (h : SameFuture flags s t) (i : Instr) :
    SameOutcome (SameFuture flags) (exec i s) (exec i t) := by
  obtain ⟨f, seed, rfl⟩ | ⟨f, rfl⟩ | ⟨f, len, rfl⟩ | ⟨f, trials, prob, len, rfl⟩ := instr_cases i
  · rw [exec_initOf, exec_initOf]
    exact .next (h.setGen _ _).complete
  · rw [exec_advOf, exec_advOf]
    by_cases hf : s.fam = famCode f
    · obtain ⟨r, hr⟩ := exists_regs_of_fam f s hf
      rw [advCommand_of_gen _ _ _ _ r hr, advCommand_of_gen _ _ _ _ r (h.gen ▸ hr)]
      exact .next ((h.setGen _ _).deliverResult _).complete
    · rw [advCommand_mismatch _ _ _ _ hf, advCommand_mismatch _ _ _ _ (h.fam ▸ hf)]
      exact .next (h.raiseFault _ _)
  · rw [exec_filluOf, exec_filluOf]
    by_cases hf : s.fam = famCode f
    · obtain ⟨r, hr⟩ := exists_regs_of_fam f s hf
      rw [filluCommand_of_gen _ _ _ _ _ r hr, filluCommand_of_gen _ _ _ _ _ r (h.gen ▸ hr), h.buf]
      exact .ite _ (.ite _ (.next ((h.setGen _ _).deliverBurst _).complete) (.refused _)) (.next (h.raiseFault _ _))
    · rw [filluCommand_mismatch _ _ _ _ _ hf, filluCommand_mismatch _ _ _ _ _ (h.fam ▸ hf)]
      exact .next (h.raiseFault _ _)
  · rw [exec_fillbOf, exec_fillbOf]
    by_cases hf : s.fam = famCode f
    · obtain ⟨r, hr⟩ := exists_regs_of_fam f s hf
      rw [fillbCommand_of_gen _ _ _ _ _ _ _ r hr, fillbCommand_of_gen _ _ _ _ _ _ _ r (h.gen ▸ hr), h.buf]
      exact .ite _ (.ite _ (.ite _ (.ite _ (.ite _ (.next ((h.setGen _ _).deliverBurst _).complete) (.refused _))
        (.refused _)) (.next (h.raiseFault _ _))) (.next (h.raiseFault _ _))) (.next (h.raiseFault _ _))
    · rw [fillbCommand_mismatch _ _ _ _ _ _ _ hf, fillbCommand_mismatch _ _ _ _ _ _ _ (h.fam ▸ hf)]
      exact .next (h.raiseFault _ _)

theorem runDescriptor_sameFuture (h : SameFuture flags s t) (d : Bits128) :
    SameOutcome (SameFuture flags) (runDescriptor d s) (runDescriptor d t) := by
  unfold runDescriptor
  cases decode d with
  | error e => exact .next (h.raiseFault _ _)
  | ok i => exact exec_sameFuture h i

theorem cutOutcome_sameOutcome {R : State → State → Prop} {o o' : Host.Outcome State Fault Refusal} (h : SameOutcome R o o')
    (beats : Nat) (landed : BitVec 4) (rest : List HostInput) (s t : State) :
    SameOutcome (SameFuture flags) (cutOutcome beats landed rest s o) (cutOutcome beats landed rest t o') := by
  cases h with
  | next => exact .next (sameFuture_resetBlock _ _ _ _)
  | fault r => exact .fault r
  | refused r => exact .refused r

theorem step_sameFuture (h : SameFuture flags s t) : SameOutcome (SameFuture flags) (step s) (step t) := by
  unfold step
  rw [h.inputs, h.cmdReady]
  cases t.inputs with
  | nil =>
    rw [idleStep, idleStep, h.cmdReady]
    exact .ite _ (.next h.clearPorts) (.fault _)
  | cons input rest =>
    cases input with
    | command d b => exact .ite _ (runDescriptor_sameFuture (h.acceptCommand b rest) d) (.fault _)
    | reset => exact .next (sameFuture_resetBlock _ _ _ _)
    | commandCut d b beats landed =>
      exact .ite _ (cutOutcome_sameOutcome (runDescriptor_sameFuture (h.acceptCommand b rest) d) _ _ _ _ _)
        (.next (sameFuture_resetBlock _ _ _ _))

end

/-- A view that a relation fixes shows the same for ever, when the relation is kept by every step. -/
theorem outputs_eq_of_bisimulation {α : Type} {view : State → α} {R : State → State → Prop}
    (hview : ∀ s t, R s t → view s = view t) (hstep : ∀ s t, R s t → SameOutcome R (step s) (step t))
    (n : Nat) {s t : State} (h : R s t) : outputs view n s = outputs view n t := by
  induction n generalizing s t with
  | zero => rfl
  | succ n ih =>
    unfold outputs
    have hnext := hstep s t h
    generalize step s = o at hnext ⊢
    generalize step t = p at hnext ⊢
    cases hnext with
    | next h' => exact congrArg₂ List.cons (hview _ _ h') (ih h')
    | fault r => rfl
    | refused r => rfl

/-- `INIT.f` leaves nothing of the past but memory, the host's count, CAUSE and FCMD: it reads no register (R22, R94). -/
theorem sameFuture_init {flags : Prop} {s t : State} (hh : s.halt = t.halt)
    (hflags : flags → s.cause = t.cause ∧ s.fcmd = t.fcmd) (f : Family) (r : Regs) (b : Buffer) (rest : List HostInput) :
    SameFuture flags (complete (setGen f r (acceptCommand b rest s))) (complete (setGen f r (acceptCommand b rest t))) :=
  ⟨rfl, hh, rfl, rfl, rfl, rfl, rfl, hflags⟩

theorem step_init {s : State} {f : Family} {seed : Bits64} {b : Buffer} {rest : List HostInput} (hh : s.halt = false)
    (hin : s.inputs = .command (encode (initOf f seed)) b :: rest) :
    step s = .next (complete (setGen f (initRegs cfg f seed) (acceptCommand b rest s))) := by
  rw [step_command hh hin, runDescriptor, decode_encode_initOf]
  exact exec_initOf f seed _

/-- After the same `INIT` two blocks show the same in every view that their common future fixes. -/
theorem outputs_init_eq {α : Type} {view : State → α} {flags : Prop} {s t : State} {f : Family} {seed : Bits64} {b : Buffer}
    {rest : List HostInput} (hview : ∀ s t, SameFuture flags s t → view s = view t)
    (hs : s.halt = false) (ht : t.halt = false)
    (hins : s.inputs = .command (encode (initOf f seed)) b :: rest)
    (hint : t.inputs = .command (encode (initOf f seed)) b :: rest)
    (hflags : flags → s.cause = t.cause ∧ s.fcmd = t.fcmd) (n : Nat) : outputs view n s = outputs view n t := by
  have hsame := sameFuture_init (hs.trans ht.symm) hflags f (initRegs cfg f seed) b rest
  cases n with
  | zero => rfl
  | succ n =>
    simp only [outputs, step_init hs hins, step_init ht hint]
    exact congrArg₂ List.cons (hview _ _ hsame) (outputs_eq_of_bisimulation hview (fun _ _ => step_sameFuture) n hsame)

/-- Settles O16: after `INIT` the two blocks have one future, and from coherent states CAUSE and FCMD are part of it. -/
theorem initErasesThePast : Obligations.InitErasesThePast := by
  unfold Obligations.InitErasesThePast
  intro f seed b rest s t n hs ht hins hint
  refine ⟨outputs_init_eq (flags := False) (fun _ _ => SameFuture.shown) hs ht hins hint False.elim n, fun cs ct => ?_⟩
  obtain ⟨hsc, hsf⟩ := cs.1 hs
  obtain ⟨htc, htf⟩ := ct.1 ht
  exact outputs_init_eq (fun _ _ => SameFuture.ports) hs ht hins hint (fun _ => ⟨hsc.trans htc.symm, hsf.trans htf.symm⟩) n

end Sys2Proof.Machine
end

section
/-! The probability contract on patterns (R126): the check of a binomial fill is the precondition of its signature. -/

namespace Sys2Proof.Machine

theorem f32Exponent_eq (b : Bits32) : f32Exponent b = b.toNat / 2 ^ 23 % 2 ^ 8 := by
  rw [f32Exponent, BitVec.extractLsb'_toNat, Nat.shiftRight_eq_div_pow]

theorem f32Fraction_eq (b : Bits32) : f32Fraction b = b.toNat % 2 ^ 23 := by
  rw [f32Fraction, BitVec.extractLsb'_toNat, Nat.shiftRight_zero]

theorem f32Magnitude_nonneg (b : Bits32) : 0 ≤ f32Magnitude b := by
  unfold f32Magnitude
  split <;> positivity

/-- A magnitude is 0 for the pattern 0 and no other, its sign aside (R15). -/
theorem f32Magnitude_eq_zero_iff (b : Bits32) : f32Magnitude b = 0 ↔ b.toNat % 2 ^ 31 = 0 := by
  have he := f32Exponent_eq b
  have hf := f32Fraction_eq b
  unfold f32Magnitude
  split
  · rw [div_eq_zero_iff, Nat.cast_eq_zero]
    norm_num
    omega
  · have hpos : ((2 ^ 23 + f32Fraction b : Nat) : ℚ) * 2 ^ f32Exponent b / 2 ^ 150 ≠ 0 := by positivity
    simp only [hpos, false_iff]
    omega

/-- The order of the magnitudes is that of the patterns, here against 1.0 (R15, R126). -/
theorem f32Magnitude_le_one_iff (b : Bits32) : f32Magnitude b ≤ 1 ↔ b.toNat % 2 ^ 31 ≤ 0x3F800000 := by
  have he := f32Exponent_eq b
  have hf := f32Fraction_eq b
  unfold f32Magnitude
  generalize f32Exponent b = e at *
  generalize f32Fraction b = fr at *
  split
  · rw [div_le_one (by positivity)]
    have hlt : (fr : ℚ) ≤ 2 ^ 149 := by
      exact_mod_cast (show fr ≤ 2 ^ 149 by omega)
    simp only [hlt, true_iff]
    omega
  · rw [div_le_one (by positivity)]
    have hcast : ((2 ^ 23 + fr : Nat) : ℚ) * 2 ^ e ≤ 2 ^ 150 ↔ (2 ^ 23 + fr) * 2 ^ e ≤ 2 ^ 150 := by
      exact_mod_cast Iff.rfl
    rw [hcast]
    obtain h | h | h := lt_trichotomy e 127
    · have hle : (2 ^ 23 + fr) * 2 ^ e ≤ 2 ^ 24 * 2 ^ 126 :=
        Nat.mul_le_mul (by omega) (Nat.pow_le_pow_right (by decide) (by omega))
      simp only [show (2 ^ 23 + fr) * 2 ^ e ≤ 2 ^ 150 from hle, true_iff]
      omega
    · subst h
      omega
    · have hle : 2 ^ 23 * 2 ^ 128 ≤ (2 ^ 23 + fr) * 2 ^ e :=
        Nat.mul_le_mul (by omega) (Nat.pow_le_pow_right (by decide) h)
      omega

/-- A magnitude of at most 1 is no infinity and no NaN. -/
theorem f32Finite_of_magnitude_le_one {b : Bits32} (h : f32Magnitude b ≤ 1) : f32Finite b = true := by
  have hb := (f32Magnitude_le_one_iff b).mp h
  have he := f32Exponent_eq b
  rw [f32Finite, bne_iff_ne]
  omega

/-- Of the negative patterns -0.0 is the one in contract (R126). -/
theorem probWf_of_msb {b : Bits32} (hm : b.msb = true) : probWf b = true ↔ b = negZero := by
  have hv : f32 b = -f32Magnitude b := if_pos hm
  have hneg : b = negZero ↔ f32Magnitude b = 0 := by
    have hbig := BitVec.msb_eq_true_iff_two_mul_ge.mp hm
    rw [f32Magnitude_eq_zero_iff, ← BitVec.toNat_inj, show negZero.toNat = 2 ^ 31 from rfl]
    omega
  rw [probWf, Bool.and_eq_true, decide_eq_true_eq, hv, hneg]
  constructor
  · rintro ⟨-, hnonneg, -⟩
    linarith [f32Magnitude_nonneg b]
  · intro h
    have hfin := f32Finite_of_magnitude_le_one (h.trans_le zero_le_one)
    simp [h, hfin]

/-- A pattern without a sign is in contract up to that of 1.0 (R126). -/
theorem probWf_of_not_msb {b : Bits32} (hm : b.msb = false) : probWf b = true ↔ b.toNat ≤ 0x3F800000 := by
  have hv : f32 b = f32Magnitude b := if_neg (by rw [hm]; decide)
  have hone : f32Magnitude b ≤ 1 ↔ b.toNat ≤ 0x3F800000 := by
    have hsmall := BitVec.msb_eq_false_iff_two_mul_lt.mp hm
    rw [f32Magnitude_le_one_iff, Nat.mod_eq_of_lt (by omega)]
  rw [probWf, Bool.and_eq_true, decide_eq_true_eq, hv, ← hone]
  exact ⟨fun h => h.2.2, fun h => ⟨f32Finite_of_magnitude_le_one h, f32Magnitude_nonneg b, h⟩⟩

/-- The check of R126 on patterns is the signature's precondition on values. -/
theorem probOk_eq_probWf (b : Bits32) : probOk b = probWf b := by
  rw [Bool.eq_iff_iff]
  cases hm : b.msb with
  | true => rw [probWf_of_msb hm, probOk, hm]; simp
  | false =>
    have hne : b ≠ negZero := by rintro rfl; exact absurd hm (by decide)
    rw [probWf_of_not_msb hm, probOk, hm]
    simp [hne, BitVec.le_def]

end Sys2Proof.Machine
end

section
/-! Which of the conditions of R149 comes first decides what a descriptor does, and what a reset leaves of a command it cuts
(R165). -/

namespace Sys2Proof.Machine

/-! ### The first cause, one kind of command at a time -/

section
variable {s : State} {d : Bits128} {f : Family}

theorem firstCause_initOf {seed : Bits64} (hd : decode d = .ok (initOf f seed)) : firstCause s d = none := by
  simp [firstCause, causeConditions, hd]

theorem firstCause_advOf (hd : decode d = .ok (advOf f)) :
    firstCause s d = if s.fam = famCode f then none else some .familyMismatch := by
  by_cases hf : s.fam = famCode f <;> simp [firstCause, causeConditions, hd, hf]

theorem firstCause_filluOf {len : Bits32} (hd : decode d = .ok (filluOf f len)) :
    firstCause s d =
      if s.fam = famCode f then
        if lenOk len then none else some .badLength
      else some .familyMismatch := by
  rw [lenOk_eq_lengthWf]
  by_cases hf : s.fam = famCode f
  · cases hl : lengthWf len <;> simp [firstCause, causeConditions, hd, hf, hl]
  · simp [firstCause, causeConditions, hd, hf]

theorem firstCause_fillbOf {trials prob len : Bits32} (hd : decode d = .ok (fillbOf f trials prob len)) :
    firstCause s d =
      if s.fam = famCode f then
        if lenOk len then
          if trialsOk trials then
            if probOk prob then none else some .badProb
          else some .badTrials
        else some .badLength
      else some .familyMismatch := by
  rw [lenOk_eq_lengthWf, trialsOk_eq_trialsWf, probOk_eq_probWf]
  by_cases hf : s.fam = famCode f
  · cases hl : lengthWf len
    · simp [firstCause, causeConditions, hd, hf, hl]
    · cases ht : trialsWf trials
      · simp [firstCause, causeConditions, hd, hf, hl, ht]
      · cases hp : probWf prob <;> simp [firstCause, causeConditions, hd, hf, hl, ht, hp]
  · simp [firstCause, causeConditions, hd, hf]

end

theorem bufferHolds_of_not_fill {i : Instr} (b : Buffer) (h : fillLen i = none) : bufferHolds b i :=
  fun len hl => by rw [h] at hl; cases hl

theorem bufferHolds_iff {i : Instr} {len : Bits32} (b : Buffer) (h : fillLen i = some len) :
    bufferHolds b i ↔ len.toNat ≤ b.cap := by
  simp [bufferHolds, h]

/-- What an accepted descriptor does, decided by its first cause: the fault of that cause, or else completion when the buffer
holds what it writes, and refusal when it does not (R43, R147, R149; log entry 8). -/
inductive Decided (d : Bits128) (s : State) : Option Cause → Host.Outcome State Fault Refusal → Prop where
  | faults (c : Cause) : Decided d s (some c) (.next (raiseFault c d s))
  | completes (i : Instr) (t : State) (hd : decode d = .ok i) (hb : bufferHolds s.buf i) (hx : exec i s = .next t)
    (he : Effect s i t) : Decided d s none (.next t)
  | refuses (i : Instr) (hd : decode d = .ok i) (hb : ¬ bufferHolds s.buf i) : Decided d s none (.refused .shortBuffer)

section
variable {d : Bits128} {f : Family} (s : State)

theorem decided_advOf (hd : decode d = .ok (advOf f)) : Decided d s (firstCause s d) (exec (advOf f) s) := by
  rw [firstCause_advOf hd]
  by_cases hf : s.fam = famCode f
  · obtain ⟨r, hr⟩ := exists_regs_of_fam f s hf
    have hx := (exec_advOf f s).trans (advCommand_of_gen cfg f _ s r hr)
    rw [if_pos hf, hx]
    exact .completes _ _ hd (bufferHolds_of_not_fill _ (fillLen_advOf f)) hx (.adv f r hr)
  · rw [if_neg hf, exec_advOf, advCommand_mismatch _ _ _ _ hf, encode_of_decode hd]
    exact .faults _

theorem decided_filluOf {len : Bits32} (hd : decode d = .ok (filluOf f len)) :
    Decided d s (firstCause s d) (exec (filluOf f len) s) := by
  have hbuf := bufferHolds_iff s.buf (fillLen_filluOf f len)
  rw [firstCause_filluOf hd]
  by_cases hf : s.fam = famCode f
  · obtain ⟨r, hr⟩ := exists_regs_of_fam f s hf
    have hx := (exec_filluOf f len s).trans (filluCommand_of_gen cfg f _ len s r hr)
    rw [encode_of_decode hd] at hx
    rw [if_pos hf]
    by_cases hl : lenOk len = true
    · by_cases hc : len.toNat ≤ s.buf.cap
      · rw [if_pos hl, if_pos hc] at hx
        rw [if_pos hl, hx]
        exact .completes _ _ hd (hbuf.mpr hc) hx (.fillu f r len hr hl hc)
      · rw [hx, if_pos hl, if_pos hl, if_neg hc]
        exact .refuses _ hd (hbuf.not.mpr hc)
    · rw [hx, if_neg hl, if_neg hl]
      exact .faults _
  · rw [if_neg hf, exec_filluOf, filluCommand_mismatch _ _ _ _ _ hf, encode_of_decode hd]
    exact .faults _

theorem decided_fillbOf {trials prob len : Bits32} (hd : decode d = .ok (fillbOf f trials prob len)) :
    Decided d s (firstCause s d) (exec (fillbOf f trials prob len) s) := by
  have hbuf := bufferHolds_iff s.buf (fillLen_fillbOf f trials prob len)
  rw [firstCause_fillbOf hd]
  by_cases hf : s.fam = famCode f
  · obtain ⟨r, hr⟩ := exists_regs_of_fam f s hf
    have hx := (exec_fillbOf f trials prob len s).trans (fillbCommand_of_gen cfg f _ trials prob len s r hr)
    rw [encode_of_decode hd] at hx
    rw [if_pos hf]
    by_cases hl : lenOk len = true
    · by_cases ht : trialsOk trials = true
      · by_cases hp : probOk prob = true
        · by_cases hc : len.toNat ≤ s.buf.cap
          · rw [if_pos hl, if_pos ht, if_pos hp, if_pos hc, if_pos (trials_le_trialsMax trials ht)] at hx
            rw [if_pos hl, if_pos ht, if_pos hp, hx]
            exact .completes _ _ hd (hbuf.mpr hc) hx (.fillb f r trials prob len hr hl ht hp hc)
          · rw [hx, if_pos hl, if_pos hl, if_pos ht, if_pos ht, if_pos hp, if_pos hp, if_neg hc]
            exact .refuses _ hd (hbuf.not.mpr hc)
        · rw [hx, if_pos hl, if_pos hl, if_pos ht, if_pos ht, if_neg hp, if_neg hp]
          exact .faults _
      · rw [hx, if_pos hl, if_pos hl, if_neg ht, if_neg ht]
        exact .faults _
    · rw [hx, if_neg hl, if_neg hl]
      exact .faults _
  · rw [if_neg hf, exec_fillbOf, fillbCommand_mismatch _ _ _ _ _ _ _ hf, encode_of_decode hd]
    exact .faults _

/-- The first condition that holds decides what a command does (R149). -/
theorem exec_decided {i : Instr} (hd : decode d = .ok i) : Decided d s (firstCause s d) (exec i s) := by
  obtain ⟨f, seed, rfl⟩ | ⟨f, rfl⟩ | ⟨f, len, rfl⟩ | ⟨f, trials, prob, len, rfl⟩ := instr_cases i
  · have hx := (exec_initOf f seed s).trans (initCommand_eq cfg f seed s)
    rw [firstCause_initOf hd, hx]
    exact .completes _ _ hd (bufferHolds_of_not_fill _ (fillLen_initOf f seed)) hx (.init f seed)
  · exact decided_advOf s hd
  · exact decided_filluOf s hd
  · exact decided_fillbOf s hd

end

/-- The first condition that holds decides what an accepted descriptor does (R142, R149). -/
theorem runDescriptor_decided (d : Bits128) (s : State) : Decided d s (firstCause s d) (runDescriptor d s) := by
  unfold runDescriptor
  cases hd : decode d with
  | error e =>
    have hc : firstCause s d = some .illegalCmd := by simp [firstCause, causeConditions, hd]
    rw [hc]
    exact .faults _
  | ok i => exact exec_decided s hd

/-! ### The beats of a completed command -/

section
variable {s t : State} {i : Instr}

/-- The values of the beats on the output port, in order (R44). -/
def State.beats (s : State) : List Bits128 := s.burst.map (·.data)

theorem beats_deliverBurst (Vs : List Bits128) (s : State) : (complete (deliverBurst Vs s)).beats = Vs :=
  numberBeats_data 0 Vs

/-- A command that is no fill puts nothing on the output port. -/
theorem Effect.burst_of_not_fill (h : Effect s i t) (hi : fillLen i = none) : t.burst = s.burst := by
  cases h with
  | init => rfl
  | adv => rfl
  | fillu f r len => rw [fillLen_filluOf] at hi; cases hi
  | fillb f r trials prob len => rw [fillLen_fillbOf] at hi; cases hi

/-- A length in contract is that of whole groups (R44, R144). -/
theorem four_mul_groupCount {len : Bits32} (hl : lenOk len = true) : 4 * groupCount len = len.toNat :=
  Nat.mul_div_cancel' (Nat.dvd_of_mod_eq_zero ((lenOk_iff len).mp hl).2)

/-- A fill delivers four elements per beat and `len` in all (R44). -/
theorem Effect.beats_length {len : Bits32} (h : Effect s i t) (hi : fillLen i = some len) :
    4 * t.beats.length = len.toNat := by
  cases h with
  | init f seed => rw [fillLen_initOf] at hi; cases hi
  | adv f => rw [fillLen_advOf] at hi; cases hi
  | fillu f r l hr hl =>
    rw [fillLen_filluOf] at hi
    cases hi
    rw [beats_deliverBurst, uniformGroups_length, four_mul_groupCount hl]
  | fillb f r trials prob l hr hl =>
    rw [fillLen_fillbOf] at hi
    cases hi
    rw [beats_deliverBurst, binomialGroups_length, four_mul_groupCount hl]

end

/-! ### A fill cut by a reset -/

section
variable {s t : State} {f : Family} {len : Bits32} {r : Regs} {pos : Nat}

/-- An element that had landed is the one the whole burst would have left (R165). -/
theorem readElem_storeCut_eq_storeBurst (b : Buffer) (Vs : List Bits128) (k : Nat) (landed : BitVec 4) (m : List Host.Cell)
    (hp : pos / 4 < Vs.length) (hl : hadLanded k landed pos) :
    Memory.readElem (Memory.storeCut b Vs k landed m) b pos = Memory.readElem (Memory.storeBurst b 0 Vs m) b pos := by
  have hV := List.getElem?_eq_getElem hp
  rw [readElem_storeCut b Vs k landed m pos _ hV hl, readElem_burst b Vs m pos _ hV]

/-- What a cut uniform fill left at a position that had landed (R120, R165). -/
theorem readElem_cut_fillu (hx : exec (filluOf f len) s = .next t) (hh : t.halt = false) (hr : s.gen = some ⟨f, r⟩)
    (b : Buffer) (k : Nat) (landed : BitVec 4) (m : List Host.Cell) (hp : pos < len.toNat) (hl : hadLanded k landed pos) :
    Memory.readElem (Memory.storeCut b t.beats k landed m) b pos = some (uniformElem cfg f r pos) := by
  obtain ⟨r', hr', hlen, -, rfl⟩ := fillu_completed hx hh
  cases hr.symm.trans hr'
  have hg : pos / 4 < groupCount len := by
    have := four_mul_groupCount hlen
    omega
  rw [beats_deliverBurst, readElem_storeCut_eq_storeBurst _ _ _ _ _ (by rwa [uniformGroups_length]) hl,
    readElem_uniformGroups _ _ _ _ _ _ hg]

/-- What a cut binomial fill left at a position that had landed (R128, R165). -/
theorem readElem_cut_fillb {trials prob : Bits32} (hx : exec (fillbOf f trials prob len) s = .next t) (hh : t.halt = false)
    (hr : s.gen = some ⟨f, r⟩) (b : Buffer) (k : Nat) (landed : BitVec 4) (m : List Host.Cell) (hp : pos < len.toNat)
    (hl : hadLanded k landed pos) : Memory.readElem (Memory.storeCut b t.beats k landed m) b pos =
      some (cnt2f (successes cfg f trials.toNat (thresh prob) r pos)) := by
  obtain ⟨r', hr', hlen, -, -, -, rfl⟩ := fillb_completed hx hh
  cases hr.symm.trans hr'
  have hg : pos / 4 < groupCount len := by
    have := four_mul_groupCount hlen
    omega
  rw [beats_deliverBurst, readElem_storeCut_eq_storeBurst _ _ _ _ _ (by rwa [binomialGroups_length]) hl,
    readElem_binomialGroups _ _ _ _ _ _ _ _ hg trials.isLt]

end

theorem storeCut_nil (b : Buffer) (k : Nat) (landed : BitVec 4) (m : List Host.Cell) :
    Memory.storeCut b [] k landed m = m := by
  simp [Memory.storeCut, Memory.storeBurst]

/-- The state a reset leaves when it cuts a command that would have left `u` (R165; log entry 13). -/
def cutState (b : Buffer) (k : Nat) (landed : BitVec 4) (rest : List HostInput) (s u : State) : State :=
  resetBlock rest { s with mem := Memory.storeCut b u.beats k landed s.mem }

theorem cutOutcome_next (k : Nat) (landed : BitVec 4) (b : Buffer) (rest rest' : List HostInput) (s u : State) :
    cutOutcome k landed rest (acceptCommand b rest' s) (.next u) = .next (cutState b k landed rest s u) := rfl

/-- A command that put nothing on the output port is cut without a trace in memory. -/
theorem cutState_mem_of_burst_nil (b : Buffer) (k : Nat) (landed : BitVec 4) (rest : List HostInput) (s : State) {u : State}
    (h : u.burst = []) : (cutState b k landed rest s u).mem = s.mem := by
  rw [cutState, resetBlock_mem, State.beats, h]
  exact storeCut_nil b k landed s.mem

/-- Settles O53, by what the cut descriptor would have done: fault, complete or be refused. -/
theorem resetKeepsWhatACutFillWrote : Obligations.ResetKeepsWhatACutFillWrote := by
  unfold Obligations.ResetKeepsWhatACutFillWrote
  intro s d b k landed rest hh hin
  have hdec := runDescriptor_decided d (acceptCommand b rest s)
  have hcause : firstCause (acceptCommand b rest s) d = firstCause s d := rfl
  rw [step_commandCut hh hin]
  rw [hcause] at hdec
  generalize runDescriptor d (acceptCommand b rest s) = o at hdec ⊢
  generalize firstCause s d = cause at hdec ⊢
  cases hdec with
  | faults c =>
    have hmem := cutState_mem_of_burst_nil b k landed rest s (u := raiseFault c d (acceptCommand b rest s)) rfl
    exact ⟨nofun, fun _ => ⟨_, cutOutcome_next .., rfl, resetBlock_status _ _, rfl, rfl, rfl, rfl, rfl,
      fun _ _ => hmem, fun _ _ _ => hmem, nofun, nofun, fun _ _ _ _ _ _ => by rw [hmem]⟩⟩
  | completes i u hd hb hx he =>
    refine ⟨fun _ j hj hnb => ?_, fun _ => ⟨_, cutOutcome_next .., rfl, resetBlock_status _ _, rfl, rfl, rfl, rfl, rfl,
      nofun, fun j hj hl => ?_, fun f r len hr hj _ pos hp hl => ?_,
      fun f r trials prob len hr hj _ pos hp hl => ?_, fun j len hj hl a ha => ?_⟩⟩ <;>
      cases hd.symm.trans hj
    · exact absurd hb hnb
    · exact cutState_mem_of_burst_nil b k landed rest s (he.burst_of_not_fill hl)
    · exact readElem_cut_fillu hx (he.halt.trans hh) hr b k landed s.mem hp hl
    · exact readElem_cut_fillb hx (he.halt.trans hh) hr b k landed s.mem hp hl
    · refine read_storeCut_outside b u.beats k landed s.mem a ?_
      rw [he.beats_length hl]
      exact ha
  | refuses i hd hnb =>
    exact ⟨fun _ _ _ _ => rfl, fun h => absurd (h rfl i hd) hnb⟩

end Sys2Proof.Machine
end

section
/-! Which bytes the block writes: an element's own four (R45), and of a fill those of its beats in the bound buffer (R42,
R44, R49). -/

namespace Sys2Proof.Machine

/-! ### One element -/

/-- `BufWrite` leaves byte i of the element at its offset (R45). -/
theorem read_bufWrite_byte (b : Buffer) (pos : Nat) (v : Bits32) (m : List Host.Cell) {i : Nat} (hi : i < 4) :
    Memory.read (Memory.bufWrite b pos v m) (b.base + (4 * pos + i)) = some (Memory.elemByte v i) := by
  have hcases : i = 0 ∨ i = 1 ∨ i = 2 ∨ i = 3 := by omega
  rw [Memory.bufWrite, Memory.read_memWrite]
  obtain rfl | rfl | rfl | rfl := hcases <;> simp [← Nat.add_assoc]

/-- Settles O38: the write is read back byte by byte, and as an element. -/
theorem elementsAreLittleEndian : Obligations.ElementsAreLittleEndian := by
  unfold Obligations.ElementsAreLittleEndian
  intro b pos v m
  exact ⟨fun i hi => read_bufWrite_byte b pos v m hi, fun a ha => Memory.read_memWrite_other b (4 * pos) v m a ha,
    Memory.readElem_bufWrite_same b pos v m⟩

/-! ### A burst inside a buffer of `len` elements -/

/-- A burst of no more than `len` elements stays inside them (R42). -/
theorem read_storeBurst_of_not_inBuffer {b : Buffer} {Vs : List Bits128} {len a : Nat} (m : List Host.Cell)
    (hlen : 4 * Vs.length ≤ len) (ha : ¬ inBuffer b len a) :
    Memory.read (Memory.storeBurst b 0 Vs m) a = Memory.read m a := by
  apply Memory.read_storeBurst_other
  rw [inBuffer] at ha
  omega

/-- What a reset leaves of a burst of no more than `len` elements stays inside them (R42, R165). -/
theorem read_storeCut_of_not_inBuffer {b : Buffer} {Vs : List Bits128} {len a : Nat} (k : Nat) (landed : BitVec 4)
    (m : List Host.Cell) (hlen : 4 * Vs.length ≤ len) (ha : ¬ inBuffer b len a) :
    Memory.read (Memory.storeCut b Vs k landed m) a = Memory.read m a := by
  apply Memory.read_storeCut_other
  rw [inBuffer] at ha
  omega

/-! ### Completion -/

/-- The group of a position below a length in contract is one of the fill's groups (R44). -/
theorem group_lt_groupCount {len : Bits32} (hl : lenOk len = true) {pos : Nat} (hp : pos < len.toNat) :
    pos / 4 < groupCount len := by
  have := four_mul_groupCount hl
  omega

section
variable {s t : State} {i : Instr}

/-- The preconditions an effect carries are all a command needs to complete (R93, R102, R120, R128). -/
theorem Effect.exec_eq (h : Effect s i t) : exec i s = .next t := by
  cases h with
  | init f seed => exact exec_initOf f seed s
  | adv f r hr => rw [exec_advOf, advCommand_of_gen _ _ _ _ r hr]
  | fillu f r len hr hl hc => rw [exec_filluOf, filluCommand_of_gen _ _ _ _ _ r hr, if_pos hl, if_pos hc]
  | fillb f r trials prob len hr hl ht hp hc =>
    rw [exec_fillbOf, fillbCommand_of_gen _ _ _ _ _ _ _ r hr, if_pos hl, if_pos ht, if_pos hp, if_pos hc,
      if_pos (trials_le_trialsMax trials ht)]

/-- A command that leaves the block running had its own effect: each other outcome with a next state is a fault (R147). -/
theorem effect_of_exec (h : exec i s = .next t) (hh : t.halt = false) : Effect s i t := by
  obtain ⟨u, hu, he⟩ | ⟨k, -, hu⟩ | hu := exec_cases i s <;> cases hu.symm.trans h
  · exact he
  · cases hh

theorem Effect.cpc (h : Effect s i t) : t.cpc = s.cpc + 1 := by cases h <;> rfl

/-- The beats of a fill are numbered from 0 on the output port and land in the bound buffer in order (R44, R49, R50). -/
theorem Effect.beats_land {len : Bits32} (h : Effect s i t) (hi : fillLen i = some len) :
    t.burst = numberBeats 0 t.beats ∧ t.mem = Memory.storeBurst s.buf 0 t.beats s.mem := by
  cases h with
  | init f seed => rw [fillLen_initOf] at hi; cases hi
  | adv f => rw [fillLen_advOf] at hi; cases hi
  | fillu | fillb => rw [beats_deliverBurst]; exact ⟨rfl, rfl⟩

theorem Effect.mem_of_not_fill (h : Effect s i t) (hi : fillLen i = none) : t.mem = s.mem := by
  cases h with
  | init => rfl
  | adv => rfl
  | fillu f r len => rw [fillLen_filluOf] at hi; cases hi
  | fillb f r trials prob len => rw [fillLen_fillbOf] at hi; cases hi

/-- A fill writes no byte outside the `len` elements of the bound buffer (R42). -/
theorem Effect.read_of_not_inBuffer {len : Bits32} {a : Nat} (h : Effect s i t) (hi : fillLen i = some len)
    (ha : ¬ inBuffer s.buf len.toNat a) : Memory.read t.mem a = Memory.read s.mem a := by
  rw [(h.beats_land hi).2]
  exact read_storeBurst_of_not_inBuffer s.mem (h.beats_length hi).le ha

end

/-- Settles O27: the uniform loop delivers the elements and the registers, and its burst stays inside the buffer. -/
theorem uniformFillWritesConvertedAdvances : Obligations.UniformFillWritesConvertedAdvances := by
  unfold Obligations.UniformFillWritesConvertedAdvances
  intro f len r s hr hlen hc
  rw [← lenOk_eq_lengthWf] at hlen
  have he := Effect.fillu f r len hr hlen hc
  refine ⟨_, he.exec_eq, rfl, fun pos hp => readElem_uniformGroups f _ r _ _ pos (group_lt_groupCount hlen hp),
    fun a ha => he.read_of_not_inBuffer (fillLen_filluOf f len) ha, rfl, rfl, rfl, rfl, rfl, rfl, rfl, rfl⟩

/-- Settles O29: the binomial loop delivers the counts and the registers, and its burst stays inside the buffer. -/
theorem binomialFillWritesSuccessCounts : Obligations.BinomialFillWritesSuccessCounts := by
  unfold Obligations.BinomialFillWritesSuccessCounts
  intro f trials prob len r s hr hlen htrials hprob hc
  rw [← lenOk_eq_lengthWf] at hlen
  rw [← trialsOk_eq_trialsWf] at htrials
  rw [← probOk_eq_probWf] at hprob
  have he := Effect.fillb f r trials prob len hr hlen htrials hprob hc
  refine ⟨_, he.exec_eq, rfl,
    fun pos hp => readElem_binomialGroups f _ _ _ r _ _ pos (group_lt_groupCount hlen hp) trials.isLt,
    fun a ha => he.read_of_not_inBuffer (fillLen_fillbOf f trials prob len) ha, rfl, rfl, rfl, rfl, rfl, rfl, rfl, rfl⟩

/-- Settles O33: a completed fill is one burst, numbered from 0 and stored beat by beat. -/
theorem beatsLandAtTheirPositions : Obligations.BeatsLandAtTheirPositions := by
  unfold Obligations.BeatsLandAtTheirPositions
  intro i len s t hi hx hh
  have he := effect_of_exec hx hh
  obtain ⟨hburst, hmem⟩ := he.beats_land hi
  have hlen : len.toNat / 4 = t.beats.length := by
    have := he.beats_length hi
    omega
  rw [hlen, hburst, hmem]
  refine ⟨numberBeats_length 0 t.beats, fun j hj => ?_⟩
  have hV := List.getElem?_eq_getElem hj
  refine ⟨t.beats[j], by rw [numberBeats_getElem, hV, Nat.zero_add]; rfl, by omega, fun k hk => ?_⟩
  have := Memory.readElem_storeBurst s.buf 0 t.beats s.mem j k _ hV hk
  rwa [Nat.zero_add] at this

/-! ### Every step -/

/-- The length field of a descriptor is the length of the fill it decodes to, and 0 for any other command (R61, R63). -/
theorem fieldLen_of_decode {d : Bits128} {i : Instr} (h : decode d = .ok i) : fieldLen d = (fillLen i).getD 0#32 := by
  rw [← encode_of_decode h]
  cases i <;> simp [encode, fillLen]

/-- An accepted descriptor puts its beats into the bound buffer and changes no other byte; it has no more of them than its
length field says (R42, R44). -/
theorem runDescriptor_mem {d : Bits128} {s t : State} (h : runDescriptor d s = .next t) (hs : s.burst = []) :
    4 * t.beats.length ≤ (fieldLen d).toNat ∧ t.mem = Memory.storeBurst s.buf 0 t.beats s.mem := by
  have silent (hb : t.burst = []) (hm : t.mem = s.mem) :
      4 * t.beats.length ≤ (fieldLen d).toNat ∧ t.mem = Memory.storeBurst s.buf 0 t.beats s.mem := by
    rw [State.beats, hb, hm]
    exact ⟨Nat.zero_le _, rfl⟩
  obtain ⟨i, hd, he⟩ | ⟨k, -, rfl, -⟩ := runDescriptor_next h
  · cases hi : fillLen i with
    | none => exact silent ((he.burst_of_not_fill hi).trans hs) (he.mem_of_not_fill hi)
    | some len =>
      rw [fieldLen_of_decode hd, hi]
      exact ⟨(he.beats_length hi).le, (he.beats_land hi).2⟩
  · exact silent hs rfl

/-- Settles O59, by cases on what a step can do: only an accepted descriptor writes, and a cut one writes part of it. -/
theorem stepsWriteOnlyTheBoundBuffer : Obligations.StepsWriteOnlyTheBoundBuffer := by
  unfold Obligations.StepsWriteOnlyTheBoundBuffer
  intro s t hstep a hcommand hcut
  obtain ⟨-, -, rfl⟩ | ⟨rest, -, rfl⟩ | ⟨d, b, k, l, rest, hin, hreset⟩ | ⟨d, b, rest, hin, -, hrun⟩ := step_cases hstep
  · rfl
  · rfl
  · obtain ⟨-, rfl⟩ | ⟨-, u, hrun, rfl⟩ := hreset
    · rfl
    · obtain ⟨hlen, -⟩ := runDescriptor_mem hrun rfl
      exact read_storeCut_of_not_inBuffer k l s.mem hlen (hcut d b k l rest hin)
  · obtain ⟨hlen, hmem⟩ := runDescriptor_mem hrun rfl
    rw [hmem]
    exact read_storeBurst_of_not_inBuffer s.mem hlen (hcommand d b rest hin)

end Sys2Proof.Machine
end

section
/-! Which commands have a next state: with no condition of R149 only the capacity of the buffer matters (R43; log entry 8). -/

namespace Sys2Proof.Machine

/-- Settles O44: without a cause an accepted descriptor completes or its buffer is too short. -/
theorem descriptorsWithoutCauseComplete : Obligations.DescriptorsWithoutCauseComplete := by
  unfold Obligations.DescriptorsWithoutCauseComplete
  intro s d b rest hh hin hcause
  have hdec := runDescriptor_decided d (acceptCommand b rest s)
  have haccept : firstCause (acceptCommand b rest s) d = none := hcause
  rw [step_command hh hin]
  rw [haccept] at hdec
  generalize runDescriptor d (acceptCommand b rest s) = o at hdec ⊢
  cases hdec with
  | completes i t hd hb hx he =>
    exact ⟨i, hd, fun _ => ⟨t, rfl, he.halt.trans hh, he.done, he.cpc⟩, fun hnb => absurd hb hnb⟩
  | refuses i hd hnb => exact ⟨i, hd, fun hb => absurd hb hnb, fun _ => rfl⟩

/-- Every command is the one its descriptor decodes to (R61, R63). -/
theorem decode_encode (i : Instr) : decode (encode i) = .ok i := by
  cases i <;> simp [encode, decode, byFamilyBit, fieldTrials_eq, fieldProb_eq]

/-- A fill has no cause exactly when the state is of its family and its preconditions hold (R143 to R146, R149). -/
theorem firstCause_fill_eq_none_iff {s : State} {d : Bits128} {i : Instr} {len : Bits32} (hd : decode d = .ok i)
    (hi : fillLen i = some len) : firstCause s d = none ↔ s.fam = famCode (family i) ∧ i.wf = true := by
  obtain ⟨f, seed, rfl⟩ | ⟨f, rfl⟩ | ⟨f, l, rfl⟩ | ⟨f, trials, prob, l, rfl⟩ := instr_cases i
  · rw [fillLen_initOf] at hi; cases hi
  · rw [fillLen_advOf] at hi; cases hi
  · rw [firstCause_filluOf hd, lenOk_eq_lengthWf]
    simp [ite_eq_iff]
  · rw [firstCause_fillbOf hd, lenOk_eq_lengthWf, trialsOk_eq_trialsWf, probOk_eq_probWf]
    simp [ite_eq_iff, and_assoc]

/-- Settles O48, by what its first cause decides of a command. -/
theorem onlyShortBuffersAreRefused : Obligations.OnlyShortBuffersAreRefused := by
  unfold Obligations.OnlyShortBuffersAreRefused
  intro i s
  have hdec := exec_decided s (decode_encode i)
  generalize exec i s = o at hdec ⊢
  generalize hcause : firstCause s (encode i) = cause at hdec
  cases hdec with
  | faults | completes => exact .inl ⟨_, rfl⟩
  | refuses j hd hnb =>
    cases (decode_encode i).symm.trans hd
    cases hi : fillLen i with
    | none => exact absurd (bufferHolds_of_not_fill s.buf hi) hnb
    | some len =>
      obtain ⟨hfam, hwf⟩ := (firstCause_fill_eq_none_iff hd hi).mp hcause
      exact .inr ⟨rfl, hnb, hwf, hfam⟩

end Sys2Proof.Machine
end

section
/-! Memory is written and never read (R41): with other contents of memory a step is the same, and it stores the same bytes. -/

namespace Sys2Proof.Machine

/-- A run whose next state, if it has one, is the same from any memory but for a store that reads nothing of it. -/
def StoresBlindly (run : State → Host.Outcome State Fault Refusal) (s : State) : Prop :=
  ∀ t, run s = .next t → ∃ store, Memory.WritesBlindly store ∧
    ∀ m, run { s with mem := m } = .next { t with mem := store m }

/-- A completed command is the same effect from any memory. -/
theorem Effect.writesBlindly {s t : State} {i : Instr} (h : Effect s i t) :
    ∃ store, Memory.WritesBlindly store ∧ ∀ m, Effect { s with mem := m } i { t with mem := store m } := by
  cases h with
  | init f seed => exact ⟨_, Memory.writesBlindly_id, fun _ => .init f seed⟩
  | adv f r hr => exact ⟨_, Memory.writesBlindly_id, fun _ => .adv f r hr⟩
  | fillu f r len hr hl hc => exact ⟨_, Memory.writesBlindly_storeBurst s.buf 0 _, fun _ => .fillu f r len hr hl hc⟩
  | fillb f r trials prob len hr hl ht hp hc =>
    exact ⟨_, Memory.writesBlindly_storeBurst s.buf 0 _, fun _ => .fillb f r trials prob len hr hl ht hp hc⟩

theorem runDescriptor_of_effect {d : Bits128} {s t : State} {i : Instr} (hd : decode d = .ok i) (he : Effect s i t) :
    runDescriptor d s = .next t := by
  rw [runDescriptor, hd]
  exact he.exec_eq

theorem runDescriptor_of_firstCause {d : Bits128} {s : State} {c : Cause} (hc : firstCause s d = some c) :
    runDescriptor d s = .next (raiseFault c d s) := by
  have hdec := runDescriptor_decided d s
  rw [hc] at hdec
  generalize runDescriptor d s = o at hdec ⊢
  cases hdec
  rfl

theorem runDescriptor_storesBlindly (d : Bits128) (s : State) : StoresBlindly (runDescriptor d) s := by
  intro t h
  have hdec := runDescriptor_decided d s
  rw [h] at hdec
  generalize hc : firstCause s d = cause at hdec
  cases hdec with
  | faults c => exact ⟨_, Memory.writesBlindly_id, fun m => runDescriptor_of_firstCause (s := { s with mem := m }) hc⟩
  | completes i t hd hb hx he =>
    obtain ⟨store, hblind, hsame⟩ := he.writesBlindly
    exact ⟨store, hblind, fun m => runDescriptor_of_effect hd (hsame m)⟩

theorem step_commandCut_of_halt {s : State} {d : Bits128} {b : Buffer} {rest : List HostInput} {k : Nat}
    {landed : BitVec 4} (hh : s.halt = true) (hin : s.inputs = .commandCut d b k landed :: rest) :
    step s = .next (resetBlock rest s) := by
  simp [step, hin, cmdReady_eq_not_halt, hh]

theorem step_storesBlindly (s : State) : StoresBlindly step s := by
  intro t h
  obtain ⟨hin, hh, rfl⟩ | ⟨rest, hin, rfl⟩ | ⟨d, b, k, l, rest, hin, hcut⟩ | ⟨d, b, rest, hin, hh, hrun⟩ := step_cases h
  · exact ⟨_, Memory.writesBlindly_id, fun m => step_idle (s := { s with mem := m }) hh hin⟩
  · exact ⟨_, Memory.writesBlindly_id, fun m => step_reset (s := { s with mem := m }) hin⟩
  · obtain ⟨hh, rfl⟩ | ⟨hh, u, hrun, rfl⟩ := hcut
    · exact ⟨_, Memory.writesBlindly_id, fun m => step_commandCut_of_halt (s := { s with mem := m }) hh hin⟩
    · obtain ⟨store, -, hsame⟩ := runDescriptor_storesBlindly d _ u hrun
      refine ⟨_, Memory.writesBlindly_storeCut b u.beats k l, fun m => ?_⟩
      rw [step_commandCut (s := { s with mem := m }) hh hin]
      exact congrArg (cutOutcome k l rest (acceptCommand b rest { s with mem := m })) (hsame m)
  · obtain ⟨store, hblind, hsame⟩ := runDescriptor_storesBlindly d _ t hrun
    exact ⟨store, hblind, fun m => (step_command (s := { s with mem := m }) hh hin).trans (hsame m)⟩

/-- Settles O54: blocks that differ in memory only have one future, and a step stores the same bytes in both. -/
theorem memoryContentsInfluenceNothing : Obligations.MemoryContentsInfluenceNothing := by
  unfold Obligations.MemoryContentsInfluenceNothing
  intro s m
  have hfuture : SameFuture True { s with mem := m } s := ⟨rfl, rfl, rfl, rfl, rfl, rfl, rfl, fun _ => ⟨rfl, rfl⟩⟩
  have houtputs (n : Nat) : outputs State.ports n { s with mem := m } = outputs State.ports n s :=
    outputs_eq_of_bisimulation (R := SameFuture True) (fun _ _ h => h.ports) (fun _ _ => step_sameFuture) n hfuture
  refine ⟨houtputs, fun t hstep => ?_⟩
  obtain ⟨store, hblind, hsame⟩ := step_storesBlindly s t hstep
  have hmem : t.mem = store s.mem := by
    injection hstep.symm.trans (hsame s.mem) with ht
    exact congrArg State.mem ht
  rw [hmem]
  refine ⟨store m, hsame m, fun a ha => ?_, fun a => ?_⟩ <;> obtain ⟨w, hw⟩ | hold := hblind a
  · rw [hw, hw]
  · rw [hold, hold, ha]
  · exact .inl ((hw m).trans (hw s.mem).symm)
  · exact .inr ⟨hold m, hold s.mem⟩

end Sys2Proof.Machine
end

section
/-! The decoder against the encoder, against the opcode map and on illegal descriptors (R61 to R65, R142). -/

namespace Sys2Proof

/-! ### The decoder, one operation code at a time (R63, R64) -/

section
variable {d : Bits128}

theorem decode_of_rsv_ne (hrsv : fieldRsv d ≠ 0#27) : decode d = .error .reservedBitsSet := if_pos hrsv

theorem decode_of_op_init (hrsv : fieldRsv d = 0#27) (hop : fieldOp d = 1#4) :
    decode d = if fieldLen d ≠ 0#32 then .error .lenMustBeZero
      else .ok (byFamilyBit d (.initRsx (fieldArg d)) (.initSxa (fieldArg d))) := by
  simp [decode, hrsv, hop]

theorem decode_of_op_adv (hrsv : fieldRsv d = 0#27) (hop : fieldOp d = 2#4) :
    decode d = if fieldLen d ≠ 0#32 then .error .lenMustBeZero
      else if fieldArg d ≠ 0#64 then .error .argMustBeZero
      else .ok (byFamilyBit d .advRsx .advSxa) := by
  simp [decode, hrsv, hop]

theorem decode_of_op_fillu (hrsv : fieldRsv d = 0#27) (hop : fieldOp d = 3#4) :
    decode d = if fieldArg d ≠ 0#64 then .error .argMustBeZero
      else .ok (byFamilyBit d (.filluRsx (fieldLen d)) (.filluSxa (fieldLen d))) := by
  simp [decode, hrsv, hop]

theorem decode_of_op_fillb (hrsv : fieldRsv d = 0#27) (hop : fieldOp d = 4#4) :
    decode d = .ok (byFamilyBit d (.fillbRsx (fieldTrials d) (fieldProb d) (fieldLen d))
      (.fillbSxa (fieldTrials d) (fieldProb d) (fieldLen d))) := by
  simp [decode, hrsv, hop]

theorem decode_of_no_op (hrsv : fieldRsv d = 0#27) (hop : fieldOp d = 0#4 ∨ 5 ≤ (fieldOp d).toNat) :
    decode d = .error .noSuchOp := by
  have hne : fieldOp d ≠ 1#4 ∧ fieldOp d ≠ 2#4 ∧ fieldOp d ≠ 3#4 ∧ fieldOp d ≠ 4#4 := by bv_omega
  obtain ⟨h1, h2, h3, h4⟩ := hne
  simp [decode, hrsv, h1, h2, h3, h4]

end

/-- The operation codes of R63, and those of no row (R64). -/
theorem op_cases (op : BitVec 4) : op = 1#4 ∨ op = 2#4 ∨ op = 3#4 ∨ op = 4#4 ∨ (op = 0#4 ∨ 5 ≤ op.toNat) := by
  bv_omega

end Sys2Proof

namespace Sys2Proof.Machine

/-! ### Decoding and encoding are inverse -/

/-- Settles O3: the fields of a packed descriptor are the operands it was packed from. -/
theorem decodeEncodeGivesCommandBack : Obligations.DecodeEncodeGivesCommandBack := decode_encode

/-- Settles O4: the fields that a row leaves free are its operands, and every other field is that of the encoding. -/
theorem encodeDecodeGivesDescriptorBack : Obligations.EncodeDecodeGivesDescriptorBack := fun _ _ => encode_of_decode

theorem decode_eq_ok_iff {d : Bits128} {i : Instr} : decode d = .ok i ↔ encode i = d :=
  ⟨encode_of_decode, fun h => h ▸ decode_encode i⟩

/-! ### Illegal descriptors (R64, R142) -/

/-- A descriptor is illegal when its reserved field is not 0, its operation code has no row, or a field that the row
wants to be 0 is not. -/
theorem exists_decode_error_iff (d : Bits128) : (∃ e, decode d = .error e) ↔
    (fieldOp d = 0#4 ∨ 5 ≤ (fieldOp d).toNat) ∨ fieldRsv d ≠ 0#27 ∨
    ((fieldOp d = 1#4 ∨ fieldOp d = 2#4) ∧ fieldLen d ≠ 0#32) ∨
    ((fieldOp d = 2#4 ∨ fieldOp d = 3#4) ∧ fieldArg d ≠ 0#64) := by
  by_cases hrsv : fieldRsv d = 0#27
  · obtain hop | hop | hop | hop | hop := op_cases (fieldOp d)
    · rw [decode_of_op_init hrsv hop]
      simp [hrsv, hop, ite_eq_iff]
    · rw [decode_of_op_adv hrsv hop]
      by_cases hlen : fieldLen d = 0#32 <;> simp [hrsv, hop, hlen, ite_eq_iff]
    · rw [decode_of_op_fillu hrsv hop]
      simp [hrsv, hop, ite_eq_iff]
    · rw [decode_of_op_fillb hrsv hop]
      simp [hrsv, hop]
    · exact ⟨fun _ => .inl hop, fun _ => ⟨_, decode_of_no_op hrsv hop⟩⟩
  · exact ⟨fun _ => .inr (.inl hrsv), fun _ => ⟨_, decode_of_rsv_ne hrsv⟩⟩

/-- Settles O2: by operation code, and an illegal descriptor that is accepted runs into fault entry. -/
theorem illegalDescriptorsRaiseIllegalCmd : Obligations.IllegalDescriptorsRaiseIllegalCmd := by
  unfold Obligations.IllegalDescriptorsRaiseIllegalCmd
  refine ⟨exists_decode_error_iff, ⟨.noSuchOp, rfl⟩, fun s d b rest e hh hin hd => ?_⟩
  rw [step_command hh hin, runDescriptor, hd]
  rfl

end Sys2Proof.Machine
end

section
/-! The opcode map as masks and matches (R63). Every mask covers the header of a descriptor, the fields `op`, `f` and
`rsv`, so a match fixes the header; above it a mask keeps the fields that must be 0 and drops the operands. A match is
the packing of its header with 0 in every other field. -/

namespace Sys2Proof

/-- A descriptor is packed from given fields exactly when they are its fields and its reserved field is 0 (R61). -/
theorem pack_eq_iff {op : BitVec 4} {f : BitVec 1} {len : Bits32} {arg : Bits64} {d : Bits128} :
    packDescriptor op f len arg = d ↔
      fieldRsv d = 0#27 ∧ fieldOp d = op ∧ fieldF d = f ∧ fieldLen d = len ∧ fieldArg d = arg := by
  constructor
  · rintro rfl
    exact ⟨fieldRsv_pack .., fieldOp_pack .., fieldF_pack .., fieldLen_pack .., fieldArg_pack ..⟩
  · rintro ⟨hrsv, rfl, rfl, rfl, rfl⟩
    exact pack_fields d hrsv

theorem fieldOp_and (d m : Bits128) : fieldOp (d &&& m) = fieldOp d &&& fieldOp m := BitVec.extractLsb'_and

theorem fieldF_and (d m : Bits128) : fieldF (d &&& m) = fieldF d &&& fieldF m := BitVec.extractLsb'_and

theorem fieldRsv_and (d m : Bits128) : fieldRsv (d &&& m) = fieldRsv d &&& fieldRsv m := BitVec.extractLsb'_and

theorem fieldLen_and (d m : Bits128) : fieldLen (d &&& m) = fieldLen d &&& fieldLen m := BitVec.extractLsb'_and

theorem fieldArg_and (d m : Bits128) : fieldArg (d &&& m) = fieldArg d &&& fieldArg m := BitVec.extractLsb'_and

/-- A mask that keeps the whole header of a descriptor: `op`, `f` and `rsv`. -/
structure CoversHeader (m : Bits128) : Prop where
  op : fieldOp m = BitVec.allOnes 4
  f : fieldF m = BitVec.allOnes 1
  rsv : fieldRsv m = BitVec.allOnes 27

section
variable {m : Bits128} (hm : CoversHeader m) (d : Bits128)
include hm

theorem CoversHeader.fieldOp_and : fieldOp (d &&& m) = fieldOp d := by
  rw [Sys2Proof.fieldOp_and, hm.op, BitVec.and_allOnes]

theorem CoversHeader.fieldF_and : fieldF (d &&& m) = fieldF d := by
  rw [Sys2Proof.fieldF_and, hm.f, BitVec.and_allOnes]

theorem CoversHeader.fieldRsv_and : fieldRsv (d &&& m) = fieldRsv d := by
  rw [Sys2Proof.fieldRsv_and, hm.rsv, BitVec.and_allOnes]

theorem CoversHeader.and_eq_pack_iff (op : BitVec 4) (f : BitVec 1) :
    d &&& m = packDescriptor op f 0#32 0#64 ↔
      fieldRsv d = 0#27 ∧ fieldOp d = op ∧ fieldF d = f ∧ fieldLen d &&& fieldLen m = 0#32 ∧
      fieldArg d &&& fieldArg m = 0#64 := by
  rw [eq_comm, pack_eq_iff, hm.fieldRsv_and, hm.fieldOp_and, hm.fieldF_and, fieldLen_and, fieldArg_and]

/-! The four kinds of row, by the operand fields that the mask keeps. A kept field must be 0; a dropped one
is an operand. -/

theorem CoversHeader.selects_iff_of_len_kept (hlen : fieldLen m = BitVec.allOnes 32) (harg : fieldArg m = 0#64)
    (op : BitVec 4) (f : BitVec 1) :
    d &&& m = packDescriptor op f 0#32 0#64 ↔ packDescriptor op f 0#32 (fieldArg d) = d := by
  rw [hm.and_eq_pack_iff, pack_eq_iff, hlen, harg, BitVec.and_allOnes, BitVec.and_zero, eq_self, eq_self]

theorem CoversHeader.selects_iff_of_both_kept (hlen : fieldLen m = BitVec.allOnes 32)
    (harg : fieldArg m = BitVec.allOnes 64) (op : BitVec 4) (f : BitVec 1) :
    d &&& m = packDescriptor op f 0#32 0#64 ↔ packDescriptor op f 0#32 0#64 = d := by
  rw [hm.and_eq_pack_iff, pack_eq_iff, hlen, harg, BitVec.and_allOnes, BitVec.and_allOnes]

theorem CoversHeader.selects_iff_of_arg_kept (hlen : fieldLen m = 0#32) (harg : fieldArg m = BitVec.allOnes 64)
    (op : BitVec 4) (f : BitVec 1) :
    d &&& m = packDescriptor op f 0#32 0#64 ↔ packDescriptor op f (fieldLen d) 0#64 = d := by
  rw [hm.and_eq_pack_iff, pack_eq_iff, hlen, harg, BitVec.and_allOnes, BitVec.and_zero, eq_self, eq_self]

theorem CoversHeader.selects_iff_of_none_kept (hlen : fieldLen m = 0#32) (harg : fieldArg m = 0#64)
    (op : BitVec 4) (f : BitVec 1) :
    d &&& m = packDescriptor op f 0#32 0#64 ↔
      packDescriptor op f (fieldLen d) (packBinomialArg (fieldTrials d) (fieldProb d)) = d := by
  rw [packBinomialArg_halves, hm.and_eq_pack_iff, pack_eq_iff, hlen, harg, BitVec.and_zero, BitVec.and_zero,
    eq_self, eq_self, eq_self, eq_self]

end

end Sys2Proof

namespace Sys2Proof.Machine

/-- The masks of R63 cover the header. -/
theorem coversHeader_of_mem_opcodeRows {row : Bits128 × Bits128} (h : row ∈ opcodeRows) : CoversHeader row.1 := by
  simp only [opcodeRows, List.mem_cons, List.not_mem_nil, or_false] at h
  obtain rfl | rfl | rfl | rfl | rfl | rfl | rfl | rfl := h <;> exact ⟨rfl, rfl, rfl⟩

/-- The headers of the matches of R63 are distinct. -/
theorem opcodeRows_headers_distinct :
    opcodeRows.Pairwise (fun p q => ¬(fieldOp p.2 = fieldOp q.2 ∧ fieldF p.2 = fieldF q.2)) := by decide

theorem opcodeRows_disjoint :
    opcodeRows.Pairwise (fun p q => ∀ d : Bits128, ¬(d &&& p.1 = p.2 ∧ d &&& q.1 = q.2)) := by
  refine opcodeRows_headers_distinct.imp_of_mem fun hp hq hne d ⟨hdp, hdq⟩ => hne ?_
  have hmp := coversHeader_of_mem_opcodeRows hp
  have hmq := coversHeader_of_mem_opcodeRows hq
  rw [← hdp, ← hdq, hmp.fieldOp_and, hmq.fieldOp_and, hmp.fieldF_and, hmq.fieldF_and]
  exact ⟨rfl, rfl⟩

/-- Settles O1: a row selects the encodings of its command, and these are the descriptors that decode to it. -/
theorem decodeSelectsRowByMaskAndMatch : Obligations.DecodeSelectsRowByMaskAndMatch := by
  unfold Obligations.DecodeSelectsRowByMaskAndMatch
  refine ⟨fun d => ?_, opcodeRows_disjoint⟩
  simp only [decode_eq_ok_iff]
  exact ⟨CoversHeader.selects_iff_of_len_kept ⟨rfl, rfl, rfl⟩ d rfl rfl 1#4 0#1,
    CoversHeader.selects_iff_of_len_kept ⟨rfl, rfl, rfl⟩ d rfl rfl 1#4 1#1,
    CoversHeader.selects_iff_of_both_kept ⟨rfl, rfl, rfl⟩ d rfl rfl 2#4 0#1,
    CoversHeader.selects_iff_of_both_kept ⟨rfl, rfl, rfl⟩ d rfl rfl 2#4 1#1,
    CoversHeader.selects_iff_of_arg_kept ⟨rfl, rfl, rfl⟩ d rfl rfl 3#4 0#1,
    CoversHeader.selects_iff_of_arg_kept ⟨rfl, rfl, rfl⟩ d rfl rfl 3#4 1#1,
    CoversHeader.selects_iff_of_none_kept ⟨rfl, rfl, rfl⟩ d rfl rfl 4#4 0#1,
    CoversHeader.selects_iff_of_none_kept ⟨rfl, rfl, rfl⟩ d rfl rfl 4#4 1#1⟩

end Sys2Proof.Machine
end

section
/-! The reference mixer is a chain of invertible rounds (R81, R82), and which seeds `INIT` turns into the all-zero state
(R82, R94). -/

namespace Sys2Proof.Machine

/-! ### The rounds of the mixer -/

/-- Shifted right by 33 twice, nothing of a word is left, so the round undoes itself. -/
theorem xorShift33_involutive : Function.Involutive xorShift33 := by
  intro x
  have hgone : x >>> 33 >>> 33 = 0#64 := by
    rw [← BitVec.shiftRight_add]
    exact BitVec.ushiftRight_eq_zero (by decide)
  calc xorShift33 (xorShift33 x)
      = x ^^^ x >>> 33 ^^^ (x >>> 33 ^^^ x >>> 33 >>> 33) := by
        rw [xorShift33, xorShift33, BitVec.ushiftRight_xor_distrib]
    _ = x := by rw [hgone, BitVec.xor_zero, BitVec.xor_assoc, BitVec.xor_self, BitVec.xor_zero]

/-- A multiplier with an inverse modulo 2^64 permutes the words. -/
theorem mul_bijective_of_inverse {k k' : Bits64} (h : k * k' = 1#64) : Function.Bijective (· * k) :=
  Units.mulRight_bijective (Units.mkOfMulEqOne k k' h)

theorem mixRef_bijective : Function.Bijective mixRef := by
  have hshift := xorShift33_involutive.bijective
  have hmul1 : Function.Bijective (· * 0xFF51AFD7ED558CCD#64) :=
    mul_bijective_of_inverse (k' := 0x4F74430C22A54005#64) (by decide)
  have hmul2 : Function.Bijective (· * 0xC4CEB9FE1A85EC53#64) :=
    mul_bijective_of_inverse (k' := 0x9CB4B2F8129337DB#64) (by decide)
  exact hshift.comp (hmul2.comp (hshift.comp (hmul1.comp hshift)))

/-- Each round fixes 0, and the mixer takes no other word there (R82). -/
theorem mixRef_eq_zero_iff (x : Bits64) : mixRef x = 0#64 ↔ x = 0#64 :=
  mixRef_bijective.injective.eq_iff' (by decide)

/-- Settles O10: the mixer is a chain of five invertible rounds that fix 0. -/
theorem referenceMixerIsBijective : Obligations.ReferenceMixerIsBijective := by
  unfold Obligations.ReferenceMixerIsBijective
  exact ⟨mixRef_bijective, mixRef_eq_zero_iff⟩

/-! ### The all-zero state -/

/-- The jump is linear, so it fixes the all-zero scalar state (R85, R91). -/
theorem jumpAhead_zero (c : Cfg) (f : Family) : jumpAhead c f Scalar.zero = Scalar.zero := by
  rw [jumpAhead_eq_polyOp]
  exact (polyOp_additive (sstep_additive c f) 128 _).map_zero

@[simp] theorem streamA_zero : streamA Regs.zero = Scalar.zero := by decide

@[simp] theorem streamB_zero : streamB Regs.zero = Scalar.zero := by decide

theorem packStreams_eq_zero_iff (a b : Scalar) :
    packStreams a b = Regs.zero ↔ a = Scalar.zero ∧ b = Scalar.zero := by
  constructor
  · intro h
    exact ⟨by rw [← streamA_packStreams a b, h, streamA_zero], by rw [← streamB_packStreams a b, h, streamB_zero]⟩
  · rintro ⟨rfl, rfl⟩
    rw [← packStreams_streams Regs.zero, streamA_zero, streamB_zero]

/-- Lane A applies the mixer twice, the second time to 0 when the first word is 0 (R90). -/
theorem laneA_eq_zero_iff (c : Cfg) (seed : Bits64) :
    laneA c seed = Scalar.zero ↔ c.mix seed = 0#64 ∧ c.mix 0#64 = 0#64 := by
  rw [laneA, Scalar.zero, Scalar.mk.injEq]
  exact and_congr_right fun h => by rw [h]; rfl

/-- Stream B is zero with stream A, so lane A decides (R82, R94). -/
theorem initRegs_eq_zero_iff (c : Cfg) (f : Family) (seed : Bits64) :
    initRegs c f seed = Regs.zero ↔ c.mix seed = 0#64 ∧ c.mix 0#64 = 0#64 := by
  rw [initRegs, packStreams_eq_zero_iff, ← laneA_eq_zero_iff]
  exact and_iff_left_of_imp fun h => h ▸ jumpAhead_zero c f

/-- The machine's `INIT.f` leaves the all-zero state for seed 0 only (R82, R94). -/
theorem initRegs_cfg_eq_zero_iff (f : Family) (seed : Bits64) : initRegs cfg f seed = Regs.zero ↔ seed = 0#64 := by
  have hmix : cfg.mix = mixRef := rfl
  rw [initRegs_eq_zero_iff, hmix, mixRef_eq_zero_iff, mixRef_eq_zero_iff, and_iff_left rfl]

/-- Settles O15: lane A decides whether the state is all zero, and the mixer of REF takes only 0 to 0. -/
theorem zeroStateOnlyFromZeroSeed : Obligations.ZeroStateOnlyFromZeroSeed := by
  unfold Obligations.ZeroStateOnlyFromZeroSeed
  refine ⟨initRegs_eq_zero_iff, fun f seed s t hx => ?_⟩
  cases (exec_initOf f seed s).symm.trans hx
  simpa using initRegs_cfg_eq_zero_iff f seed

end Sys2Proof.Machine
end

section
/-! The scalar step is linear (R85), the jump evaluates its polynomial at it (R91), and `INIT` writes both lanes (R90, R92). -/

namespace Sys2Proof.Machine

/-- Settles O8: linearity gives the fixed zero, and an advance steps each stream. -/
theorem scalarStepsAreLinear : Obligations.ScalarStepsAreLinear := by
  unfold Obligations.ScalarStepsAreLinear
  intro c f
  have hlinear := sstep_additive c f
  exact ⟨hlinear, hlinear.map_zero, fun r => ⟨streamA_next c f r, streamB_next c f r⟩⟩

/-- The recursion over the bits of a polynomial adds up the powers of its set bits (R91). -/
theorem polyOp_eq_xorSum (T : Scalar → Scalar) (n p : Nat) (x : Scalar) :
    polyOp T n p x = xorSum (((List.range n).filter p.testBit).map (T^[·] x)) := by
  induction n generalizing p x with
  | zero => rfl
  | succ n ih =>
    have hbits : ((List.range n).map Nat.succ).filter p.testBit =
        ((List.range n).filter (p / 2).testBit).map Nat.succ := by
      rw [List.filter_map]
      congr 2
      exact funext fun i => Nat.testBit_succ p i
    have hpowers (is : List Nat) : (is.map Nat.succ).map (T^[·] x) = is.map (T^[·] (T x)) := List.map_map
    rw [polyOp, ih, List.range_succ_eq_map, List.filter_cons, hbits, Nat.testBit_zero]
    by_cases hp : p % 2 = 1
    · rw [if_pos hp, if_pos (decide_eq_true hp), List.map_cons, hpowers, xorSum, Function.iterate_zero_apply]
    · rw [if_neg hp, if_neg (by simpa using hp), hpowers, Scalar.zero_xor]

theorem jumpAhead_eq_evalPoly (c : Cfg) (f : Family) (a : Scalar) :
    jumpAhead c f a = evalPoly (jumpPoly c f) (sstep c f) a := by
  rw [jumpAhead_eq_polyOp, polyOp_eq_xorSum]
  rfl

/-- Settles O11: the loop is the recursion over the bits of the jump polynomial. -/
theorem jumpAheadEvaluatesPolynomial : Obligations.JumpAheadEvaluatesPolynomial := jumpAhead_eq_evalPoly

/-- Settles O14: the registers are the two lanes packed, and lane B is the polynomial evaluated on lane A. -/
theorem initWritesGeneratorState : Obligations.InitWritesGeneratorState := by
  unfold Obligations.InitWritesGeneratorState
  intro f seed s
  refine ⟨initRegs cfg f seed, exec_initOf f seed s, ?_⟩
  rw [initRegs, jumpAhead_eq_evalPoly]
  exact ⟨rfl, rfl⟩

end Sys2Proof.Machine
end

section
/-! The scalar steps are invertible under every well-formed configuration (R86, R87, R88): a linear map of the finitely many
scalar states is a bijection when zero is the only state it maps to zero. -/

namespace Sys2Proof.Machine

/-! ### Words that a shift or a rotation sends to themselves or to zero -/

/-- A word that a shift keeps is 0: the shift taken over and over moves every bit out. -/
theorem eq_zero_of_shift_eq {w k : Nat} {x : BitVec w} (shift : BitVec w → Nat → BitVec w)
    (hadd : ∀ y m n, shift y (m + n) = shift (shift y m) n) (hout : ∀ y n, w ≤ n → shift y n = 0#w) (hk : 0 < k)
    (h : shift x k = x) : x = 0#w := by
  have hkept (n : Nat) : shift x (k * (n + 1)) = x := by
    induction n with
    | zero => rw [Nat.zero_add, Nat.mul_one, h]
    | succ n ih => rw [Nat.mul_succ, hadd, ih, h]
  rw [← hkept w]
  exact hout x _ ((Nat.le_succ w).trans (Nat.le_mul_of_pos_left _ hk))

theorem eq_zero_of_ushiftRight_eq {w k : Nat} {x : BitVec w} (hk : 0 < k) (h : x >>> k = x) : x = 0#w :=
  eq_zero_of_shift_eq (· >>> ·) BitVec.shiftRight_add (fun _ _ => BitVec.ushiftRight_eq_zero) hk h

theorem eq_zero_of_shiftLeft_eq {w k : Nat} {x : BitVec w} (hk : 0 < k) (h : x <<< k = x) : x = 0#w :=
  eq_zero_of_shift_eq (· <<< ·) BitVec.shiftLeft_add (fun _ _ => BitVec.shiftLeft_eq_zero) hk h

/-- Each bit of a word stands in one of the two shifts of a rotation. -/
theorem eq_zero_of_rotl64_eq_zero {x : Bits64} {k : Nat} (hk : k ≤ 64) (h : rotl64 x k = 0#64) : x = 0#64 := by
  obtain ⟨hleft, hright⟩ := BitVec.or_eq_zero_iff.mp h
  apply BitVec.eq_of_getLsbD_eq
  intro i hi
  by_cases hik : i < 64 - k
  · have hbit := congrArg (·.getLsbD (i + k)) hleft
    simpa [show i + k < 64 by omega, BitVec.getLsbD_eq_getElem hi] using hbit
  · have hbit := congrArg (·.getLsbD (i - (64 - k))) hright
    simpa [show 64 - k + (i - (64 - k)) = i by omega] using hbit

theorem Scalar.eq_of_xor_eq_zero {x y : Scalar} (h : x.xor y = Scalar.zero) : x = y := by
  rw [← Scalar.xor_zero x, ← h, Scalar.xor_xor_cancel]

theorem finite_scalar : Finite Scalar :=
  Finite.of_injective (fun x : Scalar => (x.x0, x.x1)) fun x y h => by
    cases x; cases y; simpa using h

/-- A linear map of the scalar states with no kernel but zero is a bijection. -/
theorem Additive.bijective {T : Scalar → Scalar} (h : Additive T) (hker : ∀ x, T x = Scalar.zero → x = Scalar.zero) :
    Function.Bijective T := by
  have := finite_scalar
  refine Finite.injective_iff_bijective.mp fun u v huv => Scalar.eq_of_xor_eq_zero (hker _ ?_)
  rw [h, huv, Scalar.xor_self]

/-! ### The two steps -/

theorem amountWf_iff (k : Nat) : amountWf k = true ↔ 1 ≤ k ∧ k ≤ 63 := decide_eq_true_iff

/-- The second word gives `t`, and `t` takes the rest of the first word away (R86). -/
theorem sstepRsx_eq_zero {c : Cfg} (hA : amountWf c.rsxA = true) (hC : amountWf c.rsxC = true) {x : Scalar}
    (h : sstepRsx c x = Scalar.zero) : x = Scalar.zero := by
  obtain ⟨x0, x1⟩ := x
  rw [amountWf_iff] at hA hC
  simp only [sstepRsx, Scalar.zero, Scalar.mk.injEq] at h ⊢
  obtain ⟨h0, h1⟩ := h
  have ht : x0 ^^^ x1 = 0#64 := eq_zero_of_rotl64_eq_zero (by omega) h1
  have hx0 : x0 = 0#64 := eq_zero_of_rotl64_eq_zero (k := c.rsxA) (by omega) (by simpa [ht] using h0)
  exact ⟨hx0, by simpa [hx0] using ht⟩

/-- The first word is `x1`, and what the second then holds of `x0` is undone shift by shift (R87). -/
theorem sstepSxa_eq_zero {c : Cfg} (hA : amountWf c.sxaA = true) (hB : amountWf c.sxaB = true) {x : Scalar}
    (h : sstepSxa c x = Scalar.zero) : x = Scalar.zero := by
  obtain ⟨x0, x1⟩ := x
  rw [amountWf_iff] at hA hB
  simp only [sstepSxa, Scalar.zero, Scalar.mk.injEq] at h ⊢
  obtain ⟨rfl, h1⟩ := h
  have hu : x0 ^^^ x0 <<< c.sxaA = 0#64 := eq_zero_of_ushiftRight_eq (k := c.sxaB) (by omega)
    (BitVec.xor_eq_zero_iff.mp (by simpa using h1)).symm
  exact ⟨eq_zero_of_shiftLeft_eq (by omega) (BitVec.xor_eq_zero_iff.mp hu).symm, rfl⟩

theorem sstep_eq_zero_iff {c : Cfg} (hc : c.wf = true) (f : Family) (x : Scalar) :
    sstep c f x = Scalar.zero ↔ x = Scalar.zero := by
  simp only [Cfg.wf, Bool.and_eq_true] at hc
  obtain ⟨⟨⟨⟨⟨⟨⟨hrA, -⟩, hrC⟩, hsA⟩, hsB⟩, -⟩, -⟩, -⟩ := hc
  refine ⟨fun h => ?_, fun h => h ▸ (sstep_additive c f).map_zero⟩
  cases f with
  | rsx => exact sstepRsx_eq_zero hrA hrC h
  | sxa => exact sstepSxa_eq_zero hsA hsB h

/-- Settles O9: REF is well-formed, and there a step has no kernel but zero. -/
theorem referenceStepsAreBijective : Obligations.ReferenceStepsAreBijective := by
  unfold Obligations.ReferenceStepsAreBijective
  intro f
  have hker := sstep_eq_zero_iff ref_wf f
  exact ⟨(sstep_additive ref f).bijective fun x => (hker x).mp, hker⟩

end Sys2Proof.Machine
end

section
/-! The jump distance of REF (R96). The characteristic polynomial of a step annihilates it, so powers of the step are
polynomials of degree below 128 in it, and 64 squarings of x modulo that polynomial give the jump polynomial. -/

namespace Sys2Proof.Machine

/-- The characteristic polynomial of each scalar step of REF, bit i the coefficient of the i-th power (R96). -/
def charPoly : Family → Nat
  | .rsx => 0x100653CED7F29F88A5FD66762F0E1C001
  | .sxa => 0x12844C5D42CAF7DB0024F06FAE9E61DAF

/-- The characteristic polynomial without its leading term: what x^128 is modulo it. -/
def charLow (f : Family) : Nat := charPoly f - 2 ^ 128

theorem charLow_lt (f : Family) : charLow f < 2 ^ 128 := by cases f <;> decide

theorem charLow_add (f : Family) : charLow f + 2 ^ 128 = charPoly f := by cases f <;> decide

/-! The characteristic polynomial annihilates the step on the 128 unit states, by evaluation, hence on all. -/

theorem polyOp_charPoly_unit_x0 (f : Family) :
    ∀ i < 64, polyOp (sstep ref f) 129 (charPoly f) ⟨BitVec.twoPow 64 i, 0⟩ = Scalar.zero := by
  cases f <;> decide +kernel

theorem polyOp_charPoly_unit_x1 (f : Family) :
    ∀ i < 64, polyOp (sstep ref f) 129 (charPoly f) ⟨0, BitVec.twoPow 64 i⟩ = Scalar.zero := by
  cases f <;> decide +kernel

theorem polyOp_charPoly (f : Family) (x : Scalar) : polyOp (sstep ref f) 129 (charPoly f) x = Scalar.zero :=
  additive_ext (T := fun _ => Scalar.zero) (polyOp_additive (sstep_additive ref f) 129 _)
    (fun _ _ => (Scalar.xor_self _).symm) (polyOp_charPoly_unit_x0 f) (polyOp_charPoly_unit_x1 f) x

theorem iterate_128_eq_polyOp (f : Family) (x : Scalar) :
    (sstep ref f)^[128] x = polyOp (sstep ref f) 128 (charLow f) x := by
  have h := polyOp_charPoly f x
  rw [← charLow_add, polyOp_top _ _ _ _ (charLow_lt f)] at h
  exact (Scalar.eq_of_xor_eq_zero h).symm

/-- `squareTimes`, each square compared with its bound before the next is taken: the comparison makes the kernel evaluate
the squares one by one instead of all 64 as one nested expression. -/
def squareTimesEager (low : Nat) : Nat → Nat → Nat
  | 0, p => p
  | k + 1, p => if squareMod low 128 p < 2 ^ 128 then squareTimesEager low k (squareMod low 128 p) else 0

theorem squareTimesEager_eq {low : Nat} (hl : low < 2 ^ 128) (k p : Nat) :
    squareTimesEager low k p = squareTimes low k p := by
  induction k generalizing p with
  | zero => rfl
  | succ k ih => rw [squareTimesEager, if_pos (squareMod_lt hl 128 p), ih, squareTimes]

/-- `x^(2^64)` modulo the characteristic polynomial is the jump polynomial bit for bit (R89, R96). -/
theorem squareTimes_charLow (f : Family) : squareTimes (charLow f) 64 2 = (jumpPoly ref f).toNat := by
  rw [← squareTimesEager_eq (charLow_lt f)]
  cases f <;> decide +kernel

/-- The polynomial x is the operator itself. -/
theorem polyOp_two (T : Scalar → Scalar) (x : Scalar) : polyOp T 128 2 x = T x := by
  rw [polyOp_double T 127 1, polyOp_bit T 126 1 (by decide), if_pos rfl]

theorem jumpAhead_ref (f : Family) (a : Scalar) : jumpAhead ref f a = (sstep ref f)^[2 ^ 64] a := by
  have hpow := iterate_polyOp (sstep_additive ref f) (charLow_lt f) (iterate_128_eq_polyOp f) 64 1 2
    fun x => (polyOp_two _ x).symm
  rw [jumpAhead_eq_polyOp, ← squareTimes_charLow, ← hpow, Nat.one_mul]

/-- Settles O13: `INIT` sets the streams off by the jump, an advance keeps the offset, and under REF it is 2^64 steps. -/
theorem referenceJumpIsTwoPow64Steps : Obligations.ReferenceJumpIsTwoPow64Steps := by
  unfold Obligations.ReferenceJumpIsTwoPow64Steps
  intro f
  refine ⟨jumpAhead_ref f, fun seed k => ?_⟩
  rw [← jumpAhead_ref]
  exact (lanesOffset_initRegs ref f seed).advances k

end Sys2Proof.Machine
end

section
/-! Draws from the all-zero state (R172). -/

namespace Sys2Proof.Machine

theorem next_zero (c : Cfg) (f : Family) : next c f Regs.zero = Regs.zero := by
  rw [next, packStreams_eq_zero_iff, streamA_zero, streamB_zero, (sstep_additive c f).map_zero]
  exact ⟨rfl, rfl⟩

theorem advances_regs_zero (c : Cfg) (f : Family) (k : Nat) : advances c f k Regs.zero = Regs.zero :=
  Function.iterate_fixed (next_zero c f) k

theorem drawEntropy_zero (c : Cfg) (f : Family) (k : Nat) : drawEntropy c f Regs.zero k = 0#128 := by
  rw [drawEntropy, advances_regs_zero]
  decide

/-- The converter takes 0 to +0.0 (R113). -/
theorem uniformElem_zero (c : Cfg) (f : Family) (pos : Nat) : uniformElem c f Regs.zero pos = 0#32 := by
  simp [uniformElem, drawEntropy_zero, cvt01Lane, mantissa]

/-- Every trial compares 0 with the threshold (R129). -/
theorem trialSucceeds_zero (c : Cfg) (f : Family) (N n pos t : Nat) :
    trialSucceeds c f N n Regs.zero pos t = decide (0 < n) := by
  simp [trialSucceeds, drawEntropy_zero, mantissa]

theorem successes_zero (c : Cfg) (f : Family) (N n pos : Nat) :
    successes c f N n Regs.zero pos = if 0 < n then N else 0 := by
  have h : trialSucceeds c f N n Regs.zero pos = fun _ => decide (0 < n) :=
    funext (trialSucceeds_zero c f N n pos)
  rw [successes, h]
  split <;> simp [*]

/-- A draw from the all-zero state leaves it as it is. -/
theorem Effect.gen_of_zero {s t : State} {i : Instr} {f : Family} (h : Effect s i t) (hi : isInit i = false)
    (hs : s.gen = some ⟨f, Regs.zero⟩) : t.gen = s.gen := by
  cases h with
  | init g seed => rw [isInit_initOf] at hi; cases hi
  | adv g r hr =>
    cases hs.symm.trans hr
    rw [hs, next_zero]; rfl
  | fillu g r len hr =>
    cases hs.symm.trans hr
    rw [hs, advances_regs_zero]; rfl
  | fillb g r trials prob len hr =>
    cases hs.symm.trans hr
    rw [hs, advances_regs_zero]; rfl

/-- Settles O37: zero is a fixed point of the advance and its entropy is 0, so each element is made from 0. -/
theorem zeroStateDrawsZeroEntropy : Obligations.ZeroStateDrawsZeroEntropy := by
  unfold Obligations.ZeroStateDrawsZeroEntropy
  intro i f s t hi hs hx hh
  refine ⟨(effect_of_exec hx hh).gen_of_zero hi hs, ?_, ?_, ?_⟩
  · rintro rfl
    rw [exec_advOf, advCommand_of_gen _ _ _ _ _ hs] at hx
    cases hx
    exact congrArg some (drawEntropy_zero cfg f 1)
  · rintro len rfl pos hp
    obtain ⟨r, hr, hlen, -, rfl⟩ := fillu_completed hx hh
    cases hs.symm.trans hr
    refine (readElem_uniformGroups f _ Regs.zero _ _ pos (group_lt_groupCount hlen hp)).trans ?_
    rw [uniformElem_zero]
  · rintro trials prob len rfl pos hp
    obtain ⟨r, hr, hlen, -, -, -, rfl⟩ := fillb_completed hx hh
    cases hs.symm.trans hr
    refine (readElem_binomialGroups f _ _ _ Regs.zero _ _ pos (group_lt_groupCount hlen hp) trials.isLt).trans ?_
    rw [successes_zero, apply_ite cnt2f]
    rfl

end Sys2Proof.Machine
end

section
/-! Well-formed commands complete (R151). -/

namespace Sys2Proof.Machine

section
variable {s t : State} {i : Instr}

theorem Effect.buf (h : Effect s i t) : t.buf = s.buf := by cases h <;> rfl

theorem Effect.inputs (h : Effect s i t) : t.inputs = s.inputs := by cases h <;> rfl

/-- The signature's preconditions, the family and the buffer are what an effect asks for. -/
theorem exists_effect_of_wf (hfam : isInit i = true ∨ s.fam = famCode (family i)) (hwf : i.wf = true)
    (hbuf : bufferHolds s.buf i) : ∃ t, Effect s i t := by
  obtain ⟨f, seed, rfl⟩ | ⟨f, rfl⟩ | ⟨f, len, rfl⟩ | ⟨f, trials, prob, len, rfl⟩ := instr_cases i
  · exact ⟨_, .init f seed⟩
  · simp only [isInit_advOf, family_advOf, Bool.false_eq_true, false_or] at hfam
    obtain ⟨r, hr⟩ := exists_regs_of_fam f s hfam
    exact ⟨_, .adv f r hr⟩
  · simp only [isInit_filluOf, family_filluOf, Bool.false_eq_true, false_or] at hfam
    obtain ⟨r, hr⟩ := exists_regs_of_fam f s hfam
    rw [wf_filluOf, ← lenOk_eq_lengthWf] at hwf
    exact ⟨_, .fillu f r len hr hwf (hbuf len (fillLen_filluOf f len))⟩
  · simp only [isInit_fillbOf, family_fillbOf, Bool.false_eq_true, false_or] at hfam
    obtain ⟨r, hr⟩ := exists_regs_of_fam f s hfam
    rw [wf_fillbOf, ← lenOk_eq_lengthWf, ← trialsOk_eq_trialsWf, ← probOk_eq_probWf, Bool.and_eq_true,
      Bool.and_eq_true] at hwf
    obtain ⟨⟨hlen, htrials⟩, hprob⟩ := hwf
    exact ⟨_, .fillb f r trials prob len hr hlen htrials hprob (hbuf len (fillLen_fillbOf f trials prob len))⟩

end

/-- Settles O47: such a command has its own effect, and no effect touches HALT, CAUSE or FCMD. -/
theorem wellFormedCommandsComplete : Obligations.WellFormedCommandsComplete := by
  unfold Obligations.WellFormedCommandsComplete
  intro i s hfam hwf hbuf
  obtain ⟨t, he⟩ := exists_effect_of_wf hfam hwf hbuf
  exact ⟨t, he.exec_eq, he.done, he.cpc, he.fam, he.halt, he.cause, he.fcmd, he.buf, he.inputs⟩

end Sys2Proof.Machine
end

section
/-! `ADV.f` completes with the sums of the words after the step (R100, R101). -/

namespace Sys2Proof.Machine

/-- Each word of the entropy is the sum of one stream's words (R14, R101). -/
theorem entropy_packStreams (a b : Scalar) : entropy (packStreams a b) = joinWords (b.x0 + b.x1) (a.x0 + a.x1) := by
  rw [← joinWords_w1_w0 (entropy _), w0_entropy, w1_entropy, streamA_packStreams, streamB_packStreams]

/-- The entropy of an advance, from the scalar steps of the two streams (R100, R101). -/
theorem entropy_next (c : Cfg) (f : Family) (r : Regs) :
    entropy (next c f r) =
      joinWords ((sstep c f (streamB r)).x0 + (sstep c f (streamB r)).x1)
        ((sstep c f (streamA r)).x0 + (sstep c f (streamA r)).x1) :=
  entropy_packStreams _ _

/-- Settles O17: on a state of its family `ADV.f` writes the stepped registers and their entropy, which is the pair of
post-step sums. -/
theorem advReturnsPostStepSums : Obligations.AdvReturnsPostStepSums := by
  unfold Obligations.AdvReturnsPostStepSums
  intro f r s hgen a b
  rw [exec_advOf, advCommand_of_gen _ _ _ _ _ hgen, entropy_next]
  rfl

end Sys2Proof.Machine
end

section
/-! The converters of the entropy (R110 to R115): what a lane becomes, from its kept bits, and what a uniform fill writes
(R120, R179). -/

namespace Sys2Proof.Machine

/-! ### Patterns from an exponent and a significand (R15) -/

section
variable {e sig : Nat}

/-- The fields do not overlap, so the pattern is their sum. -/
theorem f32Pattern_toNat (he : e < 2 ^ 8) : (f32Pattern e sig).toNat = e * 2 ^ 23 + sig % 2 ^ 23 := by
  have hmask : sig &&& 0x7FFFFF = sig % 2 ^ 23 := Nat.and_two_pow_sub_one_eq_mod sig 23
  have hfr : sig % 2 ^ 23 < 2 ^ 23 := Nat.mod_lt _ (by decide)
  rw [f32Pattern, BitVec.toNat_ofNat, hmask, ← Nat.shiftLeft_add_eq_or_of_lt hfr, Nat.shiftLeft_eq]
  omega

theorem f32Pattern_msb (he : e < 2 ^ 8) : (f32Pattern e sig).msb = false := by
  rw [BitVec.msb_eq_false_iff_two_mul_lt, f32Pattern_toNat he]
  omega

theorem f32Exponent_f32Pattern (he : e < 2 ^ 8) : f32Exponent (f32Pattern e sig) = e := by
  rw [f32Exponent_eq, f32Pattern_toNat he]
  omega

theorem f32Fraction_f32Pattern (he : e < 2 ^ 8) : f32Fraction (f32Pattern e sig) = sig % 2 ^ 23 := by
  rw [f32Fraction_eq, f32Pattern_toNat he]
  omega

/-- The value of a normal number; its significand has the hidden bit. -/
theorem f32_f32Pattern (he : e < 2 ^ 8) (hpos : 0 < e) (hlow : 2 ^ 23 ≤ sig) (hhigh : sig < 2 ^ 24) :
    f32 (f32Pattern e sig) = (sig : ℚ) * 2 ^ e / 2 ^ 150 := by
  have hsig : 2 ^ 23 + sig % 2 ^ 23 = sig := by omega
  rw [f32, f32Pattern_msb he, if_neg Bool.false_ne_true, f32Magnitude, f32Exponent_f32Pattern he,
    if_neg hpos.ne', f32Fraction_f32Pattern he, hsig]

end

/-- The leading bit of `m` brought to the place of the hidden bit. -/
theorem normalized_bounds {m : Nat} (hm : m ≠ 0) (hk : m.log2 ≤ 23) :
    2 ^ 23 ≤ m <<< (23 - m.log2) ∧ m <<< (23 - m.log2) < 2 ^ 24 := by
  have hsplit : 2 ^ m.log2 * 2 ^ (23 - m.log2) = 2 ^ 23 := by rw [← pow_add, Nat.add_sub_cancel' hk]
  have hlow : 2 ^ m.log2 ≤ m := Nat.log2_self_le hm
  have hhigh : m < 2 ^ m.log2 * 2 := Nat.lt_log2_self
  rw [Nat.shiftLeft_eq]
  constructor
  · rw [← hsplit]
    exact Nat.mul_le_mul_right _ hlow
  · calc m * 2 ^ (23 - m.log2) < 2 ^ m.log2 * 2 * 2 ^ (23 - m.log2) :=
          Nat.mul_lt_mul_of_pos_right hhigh (by positivity)
      _ = 2 ^ 24 := by rw [Nat.mul_right_comm, hsplit, ← pow_succ]

/-- Normalizing an integer changes no value: the shift of the significand and the exponent cancel. -/
theorem f32_normalized {e m : Nat} (hm : m ≠ 0) (hk : m.log2 ≤ 23) (hpos : 0 < e) (he : e + m.log2 < 2 ^ 8) :
    f32 (f32Pattern (e + m.log2) (m <<< (23 - m.log2))) = (m : ℚ) * 2 ^ e / 2 ^ 127 := by
  obtain ⟨hlow, hhigh⟩ := normalized_bounds hm hk
  have hcancel : (2 : ℚ) ^ (23 - m.log2) * 2 ^ (e + m.log2) = 2 ^ e * 2 ^ 23 := by
    rw [← pow_add, ← pow_add]
    congr 1
    omega
  rw [f32_f32Pattern he (by omega) hlow hhigh, Nat.shiftLeft_eq, Nat.cast_mul, Nat.cast_pow, Nat.cast_ofNat, mul_assoc,
    hcancel]
  ring

/-! ### The kept bits of a lane (R112) -/

theorem mantissa_toNat (x : Bits32) : (mantissa cfg x).toNat = x.toNat / 2 ^ 9 := by
  rw [mantissa, BitVec.toNat_ushiftRight, Nat.shiftRight_eq_div_pow]
  rfl

theorem mantissa_lt (x : Bits32) : (mantissa cfg x).toNat < 2 ^ 23 := by
  rw [mantissa_toNat]
  omega

/-! ### The [1, 2) converter (R112) -/

/-- The result has biased exponent 127 and fraction m (R112). -/
theorem cvt12Lane_eq_f32Pattern (x : Bits32) :
    cvt12Lane cfg x = f32Pattern 127 (2 ^ 23 + (mantissa cfg x).toNat) := by
  have hm := mantissa_lt x
  apply BitVec.eq_of_toNat_eq
  rw [cvt12Lane_toNat, f32Pattern_toNat (by decide)]
  omega

/-- The value of the [1, 2) converter (R112). -/
theorem f32_cvt12Lane (x : Bits32) : f32 (cvt12Lane cfg x) = 1 + ((mantissa cfg x).toNat : ℚ) / 2 ^ 23 := by
  have hm := mantissa_lt x
  rw [cvt12Lane_eq_f32Pattern, f32_f32Pattern (by decide) (by decide) (by omega) (by omega)]
  push_cast
  ring

/-- Settles O19: the pattern is exponent 127 with m as its fraction, and each lane is converted on its own. -/
theorem converter12IsOnePlusMantissa : Obligations.Converter12IsOnePlusMantissa := by
  unfold Obligations.Converter12IsOnePlusMantissa
  refine ⟨fun x => ?_, fun E k hk => lane_mapLanes _ E k hk⟩
  have hm := mantissa_lt x
  rw [← mantissa_toNat]
  refine ⟨cvt12Lane_toNat x, ?_, ?_, ?_, f32_cvt12Lane x⟩ <;> rw [cvt12Lane_eq_f32Pattern]
  · exact f32Pattern_msb (by decide)
  · exact f32Exponent_f32Pattern (by decide)
  · rw [f32Fraction_f32Pattern (by decide)]
    omega

/-! ### The [0, 1) converter (R113, R114) -/

section
variable {x : Bits32}

theorem cvt01Lane_of_mantissa_eq_zero (hm : (mantissa cfg x).toNat = 0) : cvt01Lane cfg x = 0#32 := if_pos hm

theorem cvt01Lane_of_mantissa_ne_zero (hm : (mantissa cfg x).toNat ≠ 0) :
    cvt01Lane cfg x = f32Pattern (104 + (mantissa cfg x).toNat.log2)
      ((mantissa cfg x).toNat <<< (23 - (mantissa cfg x).toNat.log2)) := if_neg hm

theorem mantissa_log2_lt (hm : (mantissa cfg x).toNat ≠ 0) : (mantissa cfg x).toNat.log2 < 23 :=
  (Nat.log2_lt hm).mpr (mantissa_lt x)

/-- A result other than +0.0 is a normal number below 1 (R114). -/
theorem f32Exponent_cvt01Lane (hm : (mantissa cfg x).toNat ≠ 0) :
    104 ≤ f32Exponent (cvt01Lane cfg x) ∧ f32Exponent (cvt01Lane cfg x) ≤ 126 := by
  have hk := mantissa_log2_lt hm
  rw [cvt01Lane_of_mantissa_ne_zero hm, f32Exponent_f32Pattern (by omega)]
  omega

end

theorem cvt01Lane_msb (x : Bits32) : (cvt01Lane cfg x).msb = false := by
  by_cases hm : (mantissa cfg x).toNat = 0
  · rw [cvt01Lane_of_mantissa_eq_zero hm]
    rfl
  · have hk := mantissa_log2_lt hm
    rw [cvt01Lane_of_mantissa_ne_zero hm]
    exact f32Pattern_msb (by omega)

theorem f32_zero : f32 0#32 = 0 := by decide +kernel

/-- The value of the [0, 1) converter (R113). -/
theorem f32_cvt01Lane (x : Bits32) : f32 (cvt01Lane cfg x) = ((mantissa cfg x).toNat : ℚ) / 2 ^ 23 := by
  by_cases hm : (mantissa cfg x).toNat = 0
  · rw [cvt01Lane_of_mantissa_eq_zero hm, f32_zero, hm, Nat.cast_zero, zero_div]
  · have hk := mantissa_log2_lt hm
    rw [cvt01Lane_of_mantissa_ne_zero hm, f32_normalized hm (by omega) (by decide) (by omega)]
    ring

theorem cvt01Lane_congr {x y : Bits32} (h : mantissa cfg x = mantissa cfg y) : cvt01Lane cfg x = cvt01Lane cfg y := by
  simp only [cvt01Lane, h]

/-- Lanes are converted alike exactly when their kept bits are the same: the value gives them back (R113). -/
theorem mantissa_eq_iff_cvt01Lane_eq (x y : Bits32) :
    x.toNat / 2 ^ 9 = y.toNat / 2 ^ 9 ↔ cvt01Lane cfg x = cvt01Lane cfg y := by
  rw [← mantissa_toNat, ← mantissa_toNat]
  constructor
  · exact fun h => cvt01Lane_congr (BitVec.eq_of_toNat_eq h)
  · intro h
    have hv := congrArg f32 h
    rw [f32_cvt01Lane, f32_cvt01Lane, div_left_inj' (by positivity)] at hv
    exact Nat.cast_injective hv

/-- Settles O20: both converters keep the value of m, and the named results are those of lanes with m = 0, 1 and
2^23 - 1. -/
theorem converter01IsExactSubtraction : Obligations.Converter01IsExactSubtraction := by
  unfold Obligations.Converter01IsExactSubtraction
  have hleast : cvt01Lane cfg 0x00000200#32 = 0x34000000#32 := by decide
  have hgreatest : cvt01Lane cfg 0xFFFFFE00#32 = 0x3F7FFFFE#32 := by decide
  rw [← hleast, ← hgreatest]
  refine ⟨fun x => ⟨?_, ?_, cvt01Lane_msb x, mantissa_eq_iff_cvt01Lane_eq x 0x00000000#32,
    mantissa_eq_iff_cvt01Lane_eq x 0x00000200#32, mantissa_eq_iff_cvt01Lane_eq x 0xFFFFFE00#32⟩, fun E k hk => lane_mapLanes _ E k hk⟩
  · rw [f32_cvt01Lane, f32_cvt12Lane, add_sub_cancel_left]
  · rw [f32_cvt01Lane, mantissa_toNat]

theorem f32Finite_cvt01Lane (x : Bits32) : f32Finite (cvt01Lane cfg x) = true := by
  by_cases hm : (mantissa cfg x).toNat = 0
  · rw [cvt01Lane_of_mantissa_eq_zero hm]
    rfl
  · have he := f32Exponent_cvt01Lane hm
    rw [f32Finite, bne_iff_ne]
    omega

/-- The values of the [0, 1) converter (R114). -/
theorem f32_cvt01Lane_mem (x : Bits32) : 0 ≤ f32 (cvt01Lane cfg x) ∧ f32 (cvt01Lane cfg x) < 1 := by
  have hm : ((mantissa cfg x).toNat : ℚ) < 2 ^ 23 := by exact_mod_cast mantissa_lt x
  rw [f32_cvt01Lane, div_lt_one (by positivity)]
  exact ⟨by positivity, hm⟩

/-- Settles O21: m = 0 gives +0.0, and every other m a normal number with the value m / 2^23. -/
theorem converter01StaysInUnitInterval : Obligations.Converter01StaysInUnitInterval := by
  unfold Obligations.Converter01StaysInUnitInterval
  refine fun x => ⟨f32Finite_cvt01Lane x, cvt01Lane_msb x, ?_, f32_cvt01Lane_mem x⟩
  by_cases hm : (mantissa cfg x).toNat = 0
  · rw [cvt01Lane_of_mantissa_eq_zero hm]
    exact .inl ⟨rfl, rfl⟩
  · exact .inr (f32Exponent_cvt01Lane hm)

/-! ### The discarded bits (R115) -/

theorem cvt12Lane_congr {x y : Bits32} (h : mantissa cfg x = mantissa cfg y) : cvt12Lane cfg x = cvt12Lane cfg y := by
  simp only [cvt12Lane, h]

theorem belowThreshold_congr (n : Nat) {x y : Bits32} (h : mantissa cfg x = mantissa cfg y) :
    belowThreshold cfg n x = belowThreshold cfg n y := by
  rw [belowThreshold, belowThreshold, cvt12Lane_congr h]

theorem trialMask_congr (n : Nat) {x y : Bits32} (h : mantissa cfg x = mantissa cfg y) :
    trialMask cfg n x = trialMask cfg n y := by
  rw [trialMask, trialMask, belowThreshold_congr n h]

/-- An operation that reads only the kept bits of a lane gives the same on all entropies with the same kept bits. -/
theorem mapLanes_congr {op : Bits32 → Bits32} (hop : ∀ {x y}, mantissa cfg x = mantissa cfg y → op x = op y)
    {E F : Bits128} (h : ∀ k, k < 4 → mantissa cfg (lane k E) = mantissa cfg (lane k F)) :
    mapLanes op E = mapLanes op F := by
  apply eq_of_lanes
  intro k hk
  rw [lane_mapLanes _ _ _ hk, lane_mapLanes _ _ _ hk, hop (h k hk)]

/-- Settles O22: both converters and the trial read a lane through its kept bits only. -/
theorem lowNineBitsAreDiscarded : Obligations.LowNineBitsAreDiscarded := by
  unfold Obligations.LowNineBitsAreDiscarded
  intro E F hEF
  have h : ∀ k, k < 4 → mantissa cfg (lane k E) = mantissa cfg (lane k F) := by
    intro k hk
    apply BitVec.eq_of_toNat_eq
    rw [mantissa_toNat, mantissa_toNat, hEF k hk]
  exact ⟨mapLanes_congr cvt12Lane_congr h, mapLanes_congr cvt01Lane_congr h,
    fun n => mapLanes_congr (trialMask_congr n) h⟩

/-! ### Uniform fills (R120, R179) -/

/-- Settles O28: each element a completed fill writes is a result of the [0, 1) converter. -/
theorem uniformFillStaysInUnitInterval : Obligations.UniformFillStaysInUnitInterval := by
  unfold Obligations.UniformFillStaysInUnitInterval
  intro f len s t hx hh pos hp
  obtain ⟨r, -, hlen, -, rfl⟩ := fillu_completed hx hh
  exact ⟨uniformElem cfg f r pos, readElem_uniformGroups f _ r _ _ pos (group_lt_groupCount hlen hp),
    f32Finite_cvt01Lane _, f32_cvt01Lane_mem _⟩

end Sys2Proof.Machine
end

section
/-! A fill as a function of the registers and the position: two fills in a row are one (R121), the length of a fill decides
how many elements it writes and not which (R179), and each position reads one stream (R122, R133). -/

namespace Sys2Proof.Machine

/-! ### Two fills in a row -/

/-- The groups of a whole are those of its halves (R44). -/
theorem groupCount_add {len1 len2 : Bits32} (hl1 : lenOk len1 = true) (hl2 : lenOk len2 = true)
    (hsum : len1.toNat + len2.toNat < 2 ^ 32) : groupCount (len1 + len2) = groupCount len1 + groupCount len2 := by
  have h1 := four_mul_groupCount hl1
  have h2 := four_mul_groupCount hl2
  rw [groupCount, BitVec.toNat_add_of_lt hsum]
  omega

/-- A burst whose first beats fill `len` elements is those beats, and then the others into the buffer from element `len` on
(R42, R49). -/
theorem storeBurst_halves (b : Buffer) (cap : Nat) {len : Bits32} (hl : lenOk len = true) {Us : List Bits128}
    (hU : Us.length = groupCount len) (Vs : List Bits128) (m : List Host.Cell) :
    Memory.storeBurst b 0 (Us ++ Vs) m =
      Memory.storeBurst ⟨b.base + 4 * len.toNat, cap⟩ 0 Vs (Memory.storeBurst b 0 Us m) := by
  have hbase : b.base + 4 * len.toNat = b.base + 16 * groupCount len := by
    have := four_mul_groupCount hl
    omega
  rw [hbase, Memory.storeBurst_shift b.base cap b.cap, Memory.storeBurst_append, hU, Nat.add_comm 0]

/-- Settles O34: the beats of the whole are those of the first fill and then those of the second, which starts from the
registers the first one left. -/
theorem fillsCompose : Obligations.FillsCompose := by
  unfold Obligations.FillsCompose
  intro f len1 len2 mk s t1 t2 t hmk hsum hx1 hh1 hx2 hh2 hx hh
  obtain rfl | ⟨trials, prob, rfl⟩ := hmk
  · obtain ⟨r, hr, hl1, -, rfl⟩ := fillu_completed hx1 hh1
    obtain ⟨r2, hr2, hl2, -, rfl⟩ := fillu_completed hx2 hh2
    obtain ⟨r', hr', -, -, rfl⟩ := fillu_completed hx hh
    cases hr.symm.trans hr'
    obtain rfl : advances cfg f (groupCount len1) r = r2 := by simpa using hr2
    rw [groupCount_add hl1 hl2 hsum, uniformGroups_add, Nat.add_comm, advances_add]
    exact ⟨storeBurst_halves s.buf _ hl1 (uniformGroups_length ..) _ s.mem, rfl⟩
  · obtain ⟨r, hr, hl1, -, -, -, rfl⟩ := fillb_completed hx1 hh1
    obtain ⟨r2, hr2, hl2, -, -, -, rfl⟩ := fillb_completed hx2 hh2
    obtain ⟨r', hr', -, -, -, -, rfl⟩ := fillb_completed hx hh
    cases hr.symm.trans hr'
    obtain rfl : advances cfg f (trials.toNat * groupCount len1) r = r2 := by simpa using hr2
    rw [groupCount_add hl1 hl2 hsum, binomialGroups_add, Nat.mul_add, Nat.add_comm (_ * _), advances_add]
    exact ⟨storeBurst_halves s.buf _ hl1 (binomialGroups_length ..) _ s.mem, rfl⟩

/-! ### The element at a position -/

section
variable {f g : Family} {len : Bits32} {r : Regs} {s t : State} {pos : Nat}

/-- What a completed uniform fill left at a position (R120, R121). -/
theorem readElem_fillu (hx : exec (filluOf g len) s = .next t) (hh : t.halt = false) (hr : s.gen = some ⟨f, r⟩)
    (hp : pos < len.toNat) : Memory.readElem t.mem s.buf pos = some (uniformElem cfg f r pos) := by
  obtain ⟨r', hr', hl, -, rfl⟩ := fillu_completed hx hh
  cases hr.symm.trans hr'
  exact readElem_uniformGroups f _ r _ _ pos (group_lt_groupCount hl hp)

/-- What a completed binomial fill left at a position (R128). -/
theorem readElem_fillb {trials prob : Bits32} (hx : exec (fillbOf g trials prob len) s = .next t) (hh : t.halt = false)
    (hr : s.gen = some ⟨f, r⟩) (hp : pos < len.toNat) :
    Memory.readElem t.mem s.buf pos = some (cnt2f (successes cfg f trials.toNat (thresh prob) r pos)) := by
  obtain ⟨r', hr', hl, -, -, -, rfl⟩ := fillb_completed hx hh
  cases hr.symm.trans hr'
  exact readElem_binomialGroups f _ _ _ r _ _ pos (group_lt_groupCount hl hp) trials.isLt

end

/-- Settles O35: the element a uniform fill owes to a position does not mention the length. -/
theorem uniformFillPrefixIgnoresLength : Obligations.UniformFillPrefixIgnoresLength := by
  unfold Obligations.UniformFillPrefixIgnoresLength
  intro f len1 len2 s t1 t2 hx1 hh1 hx2 hh2 pos hp1 hp2
  obtain ⟨r, hr, -⟩ := fillu_completed hx1 hh1
  rw [readElem_fillu hx1 hh1 hr hp1, readElem_fillu hx2 hh2 hr hp2]

/-! ### The stream of a position -/

/-- Two generator states agree on the stream that position `pos` is made from (R122). -/
def SameStreamAt (pos : Nat) (r q : Regs) : Prop :=
  pos % 4 < 2 ∧ streamA r = streamA q ∨ 2 ≤ pos % 4 ∧ streamB r = streamB q

section
variable {pos : Nat} {r q : Regs}

/-- The lane of a position sees one stream of every later advance: each stream steps on its own and gives one word of the
entropy (R100, R101, R122). -/
theorem SameStreamAt.lane_drawEntropy (h : SameStreamAt pos r q) (c : Cfg) (f : Family) (k : Nat) :
    lane (pos % 4) (drawEntropy c f r k) = lane (pos % 4) (drawEntropy c f q k) := by
  obtain ⟨hlow, hA⟩ | ⟨hhigh, hB⟩ := h
  · refine lane_eq_of_w0 ?_ _ hlow
    rw [drawEntropy, drawEntropy, w0_entropy, w0_entropy, streamA_advances, streamA_advances, hA]
  · refine lane_eq_of_w1 ?_ _ hhigh (Nat.mod_lt pos (by decide))
    rw [drawEntropy, drawEntropy, w1_entropy, w1_entropy, streamB_advances, streamB_advances, hB]

theorem SameStreamAt.uniformElem_eq (h : SameStreamAt pos r q) (c : Cfg) (f : Family) :
    uniformElem c f r pos = uniformElem c f q pos := by
  rw [uniformElem, uniformElem, h.lane_drawEntropy]

theorem SameStreamAt.successes_eq (h : SameStreamAt pos r q) (c : Cfg) (f : Family) (N n : Nat) :
    successes c f N n r pos = successes c f N n q pos := by
  have htrial : trialSucceeds c f N n r pos = trialSucceeds c f N n q pos := by
    funext t
    rw [trialSucceeds, trialSucceeds, h.lane_drawEntropy]
  rw [successes, successes, htrial]

end

/-- Settles O36: what either fill owes to a position is made from the position's own stream. -/
theorem positionsDependOnOneStream : Obligations.PositionsDependOnOneStream := by
  unfold Obligations.PositionsDependOnOneStream
  intro i len f r q s u hi hr hq hbuf t v hxs hhs hxu hhu pos hp hstream
  have hsame : SameStreamAt pos r q := hstream
  obtain ⟨g, seed, rfl⟩ | ⟨g, rfl⟩ | ⟨g, l, rfl⟩ | ⟨g, trials, prob, l, rfl⟩ := instr_cases i
  · rw [fillLen_initOf] at hi; cases hi
  · rw [fillLen_advOf] at hi; cases hi
  · rw [fillLen_filluOf] at hi
    cases hi
    rw [readElem_fillu hxs hhs hr hp, ← hbuf, readElem_fillu hxu hhu hq hp, hsame.uniformElem_eq]
  · rw [fillLen_fillbOf] at hi
    cases hi
    rw [readElem_fillb hxs hhs hr hp, ← hbuf, readElem_fillb hxu hhu hq hp, hsame.successes_eq]

end Sys2Proof.Machine
end

section
/-! The numbers of a binomial fill, rounded to the nearest integer with ties to even: the threshold of a probability (R126,
R127), the trial (R129) and the stored count (R131). -/

namespace Sys2Proof.Machine

/-! ### Nearest, ties to even -/

/-- `n` is `x` rounded to the nearest integer, ties to even (R127, R131). -/
def IsNearestEven (n : Nat) (x : ℚ) : Prop :=
  |(n : ℚ) - x| ≤ 1 / 2 ∧ (|(n : ℚ) - x| = 1 / 2 → n % 2 = 0)

section
variable {n m : Nat} {x : ℚ}

/-- An integer is its own rounding. -/
theorem isNearestEven_natCast (n : Nat) : IsNearestEven n n := by
  rw [IsNearestEven, sub_self, abs_zero]
  norm_num

/-- A fraction up to one half is rounded down, the half itself to an even integer. -/
theorem isNearestEven_of_fraction_le (h0 : 0 ≤ x) (hx : x ≤ 1 / 2) (heven : x = 1 / 2 → n % 2 = 0) :
    IsNearestEven n (n + x) := by
  rw [IsNearestEven, sub_add_cancel_left, abs_neg, abs_of_nonneg h0]
  exact ⟨hx, heven⟩

/-- A fraction from one half on is rounded up, the half itself to an even integer. -/
theorem isNearestEven_of_le_fraction (hx : 1 / 2 ≤ x) (h1 : x ≤ 1) (heven : x = 1 / 2 → (n + 1) % 2 = 0) :
    IsNearestEven (n + 1) (n + x) := by
  rw [IsNearestEven, Nat.cast_succ, add_sub_add_left_eq_sub, abs_of_nonneg (by linarith)]
  exact ⟨by linarith, fun htie => heven (by linarith)⟩

/-- Rounding does not pass an integer upwards. -/
theorem IsNearestEven.le_of_le (h : IsNearestEven n x) (hx : x ≤ m) : n ≤ m := by
  have hn := (abs_le.mp h.1).2
  have hlt : (n : ℚ) < m + 1 := by linarith
  exact Nat.lt_succ_iff.mp (by exact_mod_cast hlt)

/-- Rounding does not pass an integer downwards. -/
theorem IsNearestEven.le_of_ge (h : IsNearestEven n x) (hx : (m : ℚ) ≤ x) : m ≤ n := by
  have hn := (abs_le.mp h.1).1
  have hlt : (m : ℚ) < n + 1 := by linarith
  exact Nat.lt_succ_iff.mp (by exact_mod_cast hlt)

/-- What is at most one half rounds to 0; the half itself is a tie between 0 and 1. -/
theorem IsNearestEven.eq_zero (h : IsNearestEven n x) (hx : x ≤ 1 / 2) : n = 0 := by
  have hn : n ≤ 1 := h.le_of_le (hx.trans (by norm_num))
  obtain rfl | rfl := Nat.le_one_iff_eq_zero_or_eq_one.mp hn
  · rfl
  · obtain ⟨hnear, heven⟩ := h
    have htie : |((1 : Nat) : ℚ) - x| = 1 / 2 :=
      le_antisymm hnear (le_abs.mpr (.inl (by push_cast; linarith)))
    exact absurd (heven htie) (by decide)

end

theorem roundShift_zero (a : Nat) : roundShift a 0 = a := by simp [roundShift, Nat.mod_one]

theorem roundShift_succ (a r : Nat) : roundShift a (r + 1) =
    if 2 ^ r < a % 2 ^ (r + 1) ∨ (a % 2 ^ (r + 1) = 2 ^ r ∧ a / 2 ^ (r + 1) % 2 = 1) then a / 2 ^ (r + 1) + 1
    else a / 2 ^ (r + 1) := rfl

/-- The quotient and the remainder of the shift decide the rounding (R127, R131). -/
theorem roundShift_isNearestEven (a r : Nat) : IsNearestEven (roundShift a r) ((a : ℚ) / 2 ^ r) := by
  cases r with
  | zero =>
    rw [roundShift_zero, pow_zero, div_one]
    exact isNearestEven_natCast a
  | succ r =>
    have hsplit := Nat.div_add_mod a (2 ^ (r + 1))
    have hrem := Nat.mod_lt a (Nat.two_pow_pos (r + 1))
    rw [roundShift_succ]
    generalize a / 2 ^ (r + 1) = q at *
    generalize a % 2 ^ (r + 1) = rem at *
    have hunit : (0 : ℚ) < 2 ^ (r + 1) := by positivity
    have hquot : (a : ℚ) / 2 ^ (r + 1) = q + rem / 2 ^ (r + 1) := by
      rw [← hsplit]
      push_cast
      field_simp
    have hhalf : (1 : ℚ) / 2 = ((2 ^ r : Nat) : ℚ) / 2 ^ (r + 1) := by
      rw [Nat.cast_pow, Nat.cast_ofNat, pow_succ, div_mul_cancel_left₀ (by positivity), one_div]
    have htie : (rem : ℚ) / 2 ^ (r + 1) = 1 / 2 → rem = 2 ^ r := by
      rw [hhalf, div_left_inj' hunit.ne', Nat.cast_inj]
      exact id
    rw [hquot]
    split_ifs with hup
    · have hge : 2 ^ r ≤ rem := by omega
      refine isNearestEven_of_le_fraction ?_ ?_ fun h => ?_
      · rw [hhalf]
        gcongr
      · rw [div_le_one hunit]
        exact_mod_cast hrem.le
      · have := htie h
        omega
    · have hle : rem ≤ 2 ^ r := by omega
      refine isNearestEven_of_fraction_le (by positivity) ?_ fun h => ?_
      · rw [hhalf]
        gcongr
      · have := htie h
        omega

/-! ### The threshold (R126, R127) -/

/-- The integer significand of a pattern: with the hidden bit in a normal number (R15, R127). -/
def significand (b : Bits32) : Nat := if f32Exponent b = 0 then f32Fraction b else 0x800000 + f32Fraction b

/-- One formula for both kinds of number: a subnormal one has the exponent of field 1 (R15, R127). -/
theorem f32Magnitude_eq_significand (b : Bits32) :
    f32Magnitude b = (significand b : ℚ) * 2 ^ max (f32Exponent b) 1 / 2 ^ 150 := by
  rw [f32Magnitude, significand]
  by_cases he : f32Exponent b = 0
  · rw [if_pos he, if_pos he, he]
    norm_num
    ring
  · rw [if_neg he, if_neg he, max_eq_left (Nat.one_le_iff_ne_zero.mpr he)]
    rfl

theorem thresh_eq_roundShift {b : Bits32} (hb : b ≠ negZero) :
    thresh b = roundShift (significand b) (127 - max (f32Exponent b) 1) := by
  rw [thresh, if_neg hb]
  by_cases hr : 127 - max (f32Exponent b) 1 = 0
  · exact (if_pos hr).trans (by rw [hr, roundShift_zero]; rfl)
  · exact if_neg hr

theorem thresh_negZero : thresh negZero = thresh 0#32 := by decide

theorem f32_negZero : f32 negZero = 0 := by decide +kernel

/-- A pattern in contract other than -0.0 has no sign and an exponent up to that of 1.0 (R126). -/
theorem probOk_bounds {b : Bits32} (hp : probOk b = true) (hb : b ≠ negZero) :
    b.msb = false ∧ f32Exponent b ≤ 127 := by
  obtain ⟨hm, hle⟩ : b.msb = false ∧ b ≤ 0x3F800000#32 := by simpa [probOk, hb] using hp
  have hnat : b.toNat ≤ 0x3F800000 := hle
  refine ⟨hm, ?_⟩
  rw [f32Exponent_eq]
  omega

/-- A pattern is in contract exactly when its value is (R126). -/
theorem probOk_iff (b : Bits32) : probOk b = true ↔ f32Finite b = true ∧ 0 ≤ f32 b ∧ f32 b ≤ 1 := by
  rw [probOk_eq_probWf, probWf, Bool.and_eq_true, decide_eq_true_eq]

/-- Settles O23: the check on patterns is the precondition on values, and both zeros have the threshold 0. -/
theorem probabilityContractOnPatterns : Obligations.ProbabilityContractOnPatterns := by
  unfold Obligations.ProbabilityContractOnPatterns
  refine ⟨probOk_iff, by decide, thresh_negZero, fun trials => ?_⟩
  rw [trialsOk_eq_trialsWf, trialsWf, decide_eq_true_eq]

/-- The threshold is the rounding of p * 2^23 (R127). -/
theorem thresh_isNearestEven {b : Bits32} (hp : probOk b = true) : IsNearestEven (thresh b) (f32 b * 2 ^ 23) := by
  by_cases hb : b = negZero
  · rw [hb, thresh_negZero, f32_negZero, zero_mul]
    exact isNearestEven_natCast 0
  · obtain ⟨hm, he⟩ := probOk_bounds hp hb
    have hpow : (2 : ℚ) ^ (127 - max (f32Exponent b) 1) * 2 ^ max (f32Exponent b) 1 = 2 ^ 127 := by
      rw [← pow_add, Nat.sub_add_cancel (by omega)]
    have hval : f32 b * 2 ^ 23 = (significand b : ℚ) / 2 ^ (127 - max (f32Exponent b) 1) := by
      rw [f32, hm, if_neg Bool.false_ne_true, f32Magnitude_eq_significand, eq_div_iff (by positivity)]
      linear_combination (significand b : ℚ) * 2 ^ 23 / 2 ^ 150 * hpow
    rw [hval, thresh_eq_roundShift hb]
    exact roundShift_isNearestEven _ _

theorem thresh_le {b : Bits32} (hp : probOk b = true) : thresh b ≤ 2 ^ 23 := by
  obtain ⟨-, -, hone⟩ := (probOk_iff b).mp hp
  refine (thresh_isNearestEven hp).le_of_le ?_
  push_cast
  linarith

/-- A probability of at most half a unit of the threshold rounds to 0 (R127, R132). -/
theorem thresh_eq_zero {b : Bits32} (hp : probOk b = true) (hb : f32 b ≤ 1 / 2 ^ 24) : thresh b = 0 :=
  (thresh_isNearestEven hp).eq_zero (by linarith)

/-- 1.0 and the greatest number below it have the threshold 2^23 (R127, R132). -/
theorem thresh_eq_full {b : Bits32} (hb : b = 0x3F800000#32 ∨ b = 0x3F7FFFFF#32) : thresh b = 2 ^ 23 := by
  obtain rfl | rfl := hb <;> decide

/-- Settles O24: the ends of the range are roundings too. -/
theorem thresholdIsRoundedProbability : Obligations.ThresholdIsRoundedProbability := by
  unfold Obligations.ThresholdIsRoundedProbability
  intro b hp
  obtain ⟨hnear, heven⟩ := thresh_isNearestEven hp
  exact ⟨thresh_le hp, hnear, heven, thresh_eq_zero hp, thresh_eq_full, rfl⟩

/-! ### Patterns whose rounding may carry into the exponent -/

/-- The value of a pattern given as a sum: a significand rounded up to 2^24 carries into the exponent field, and the value
is what the sum says all the same (R127, R131). -/
theorem f32_of_toNat_eq {b : Bits32} {e sig : Nat} (hb : b.toNat = e * 2 ^ 23 + sig) (he : e + 2 < 2 ^ 8)
    (hlow : 2 ^ 23 ≤ sig) (hhigh : sig ≤ 2 ^ 24) : f32 b = (sig : ℚ) * 2 ^ (e + 1) / 2 ^ 150 := by
  obtain hlt | rfl := hhigh.lt_or_eq
  · have hpat : b = f32Pattern (e + 1) sig := by
      apply BitVec.eq_of_toNat_eq
      rw [hb, f32Pattern_toNat (by omega)]
      omega
    rw [hpat, f32_f32Pattern (by omega) (by omega) hlow hlt]
  · have hpat : b = f32Pattern (e + 2) (2 ^ 23) := by
      apply BitVec.eq_of_toNat_eq
      rw [hb, f32Pattern_toNat he]
      omega
    rw [hpat, f32_f32Pattern he (by omega) le_rfl (by decide)]
    push_cast
    ring

/-! ### The trial (R129) -/

/-- The value of the threshold pattern; 2.0 is one (R127). -/
theorem f32_thresholdPattern {n : Nat} (hn : n ≤ 2 ^ 23) :
    f32 (BitVec.ofNat 32 (0x3F800000 + n)) = 1 + (n : ℚ) / 2 ^ 23 := by
  have hpat : (BitVec.ofNat 32 (0x3F800000 + n)).toNat = 126 * 2 ^ 23 + (2 ^ 23 + n) := by
    rw [BitVec.toNat_ofNat]
    omega
  rw [f32_of_toNat_eq hpat (by decide) (by omega) (by omega)]
  push_cast
  ring

/-- Settles O25: both values are 1 and a number of units 2^-23, so they compare as m and n. -/
theorem trialIsStrictLessThan : Obligations.TrialIsStrictLessThan := by
  unfold Obligations.TrialIsStrictLessThan
  intro x b hp
  have hT := f32_thresholdPattern (thresh_le hp)
  have hvalues : 1 + ((mantissa cfg x).toNat : ℚ) / 2 ^ 23 < 1 + (thresh b : ℚ) / 2 ^ 23 ↔
      (mantissa cfg x).toNat < thresh b := by
    rw [add_lt_add_iff_left, div_lt_div_iff_of_pos_right (by positivity), Nat.cast_lt]
  refine ⟨?_, ?_, hT⟩
  · rw [belowThreshold_iff, f32_cvt12Lane, hT, hvalues]
  · rw [belowThreshold_iff, mantissa_toNat]

/-! ### The count conversion (R131) -/

/-- The significand a count is stored with, rounded where the count has more than 24 bits (R131). -/
def countSignificand (c : Nat) : Nat :=
  if c.log2 ≤ 23 then c <<< (23 - c.log2) else roundShift c (c.log2 - 23)

section
variable {c : Nat}

theorem countSignificand_of_le (hk : c.log2 ≤ 23) : countSignificand c = c <<< (23 - c.log2) := if_pos hk

/-- From 2^23 on the significand is the count in units of the last place, rounded (R131). -/
theorem countSignificand_isNearestEven (hk : 23 ≤ c.log2) :
    IsNearestEven (countSignificand c) ((c : ℚ) / 2 ^ (c.log2 - 23)) := by
  obtain hlt | heq := hk.lt_or_eq
  · rw [countSignificand, if_neg hlt.not_ge]
    exact roundShift_isNearestEven _ _
  · rw [countSignificand_of_le heq.ge, ← heq, Nat.sub_self, Nat.shiftLeft_zero, pow_zero, div_one]
    exact isNearestEven_natCast c

/-- The significand has the hidden bit; rounded up it may be 2^24. -/
theorem countSignificand_bounds (hc : c ≠ 0) : 2 ^ 23 ≤ countSignificand c ∧ countSignificand c ≤ 2 ^ 24 := by
  by_cases hk : c.log2 ≤ 23
  · rw [countSignificand_of_le hk]
    obtain ⟨hlow, hhigh⟩ := normalized_bounds hc hk
    exact ⟨hlow, hhigh.le⟩
  · have hnear := countSignificand_isNearestEven (c := c) (by omega)
    have hself : 2 ^ c.log2 ≤ c := Nat.log2_self_le hc
    have hlog : c < 2 ^ (c.log2 + 1) := Nat.lt_log2_self
    constructor
    · refine hnear.le_of_ge ?_
      rw [le_div_iff₀ (by positivity)]
      norm_cast
      rwa [← pow_add, Nat.add_sub_cancel' (by omega)]
    · refine hnear.le_of_le ?_
      rw [div_le_iff₀ (by positivity)]
      norm_cast
      rw [← pow_add, show 24 + (c.log2 - 23) = c.log2 + 1 by omega]
      exact hlog.le

theorem cnt2f_zero : cnt2f 0 = 0#32 := rfl

theorem cnt2f_of_log2_le (hc : c ≠ 0) (hk : c.log2 ≤ 23) :
    cnt2f c = f32Pattern (127 + c.log2) (c <<< (23 - c.log2)) := (if_neg hc).trans (if_pos hk)

theorem cnt2f_of_lt_log2 (hc : c ≠ 0) (hk : 23 < c.log2) :
    cnt2f c = if countSignificand c = 2 ^ 24 then f32Pattern (127 + (c.log2 + 1)) (2 ^ 23)
      else f32Pattern (127 + c.log2) (countSignificand c) := by
  rw [countSignificand, if_neg hk.not_ge]
  exact (if_neg hc).trans (if_neg hk.not_ge)

/-- The stored pattern is the sum of exponent and significand, the carry of the rounding included (R131). -/
theorem cnt2f_toNat (hc : c ≠ 0) (hk : c.log2 ≤ 30) :
    (cnt2f c).toNat = (126 + c.log2) * 2 ^ 23 + countSignificand c := by
  by_cases hsmall : c.log2 ≤ 23
  · obtain ⟨hlow, hhigh⟩ := normalized_bounds hc hsmall
    rw [cnt2f_of_log2_le hc hsmall, countSignificand_of_le hsmall, f32Pattern_toNat (by omega)]
    omega
  · obtain ⟨hlow, hhigh⟩ := countSignificand_bounds hc
    rw [cnt2f_of_lt_log2 hc (by omega)]
    split_ifs with hcarry
    · rw [f32Pattern_toNat (by omega), hcarry]
      omega
    · rw [f32Pattern_toNat (by omega)]
      omega

/-- The stored value is the significand in units of the last place (R131). -/
theorem f32_cnt2f (hc : c ≠ 0) (hk : c.log2 ≤ 30) :
    f32 (cnt2f c) = (countSignificand c : ℚ) * 2 ^ c.log2 / 2 ^ 23 := by
  obtain ⟨hlow, hhigh⟩ := countSignificand_bounds hc
  rw [f32_of_toNat_eq (cnt2f_toNat hc hk) (by omega) hlow hhigh]
  ring

/-- The highest bit of a count in the domain of the conversion. -/
theorem log2_le_of_lt (hlt : c < 2 ^ 31) : c.log2 ≤ 30 := by
  obtain rfl | hc := eq_or_ne c 0
  · decide
  · exact Nat.lt_succ_iff.mp ((Nat.log2_lt hc).mpr hlt)

/-- The pattern of a stored count lies below that of the infinity (R15, R133). -/
theorem cnt2f_toNat_lt (hlt : c < 2 ^ 31) : (cnt2f c).toNat < 255 * 2 ^ 23 := by
  obtain rfl | hc := eq_or_ne c 0
  · decide
  · have hk := log2_le_of_lt hlt
    obtain ⟨-, hhigh⟩ := countSignificand_bounds hc
    rw [cnt2f_toNat hc hk]
    omega

theorem f32Finite_cnt2f (hlt : c < 2 ^ 31) : f32Finite (cnt2f c) = true := by
  have hpat := cnt2f_toNat_lt hlt
  rw [f32Finite, bne_iff_ne, f32Exponent_eq]
  omega

theorem cnt2f_msb (hlt : c < 2 ^ 31) : (cnt2f c).msb = false := by
  have hpat := cnt2f_toNat_lt hlt
  rw [BitVec.msb_eq_false_iff_two_mul_lt]
  omega

/-- No count up to 2^24 is rounded (R131). -/
theorem f32_cnt2f_exact (hle : c ≤ 2 ^ 24) : f32 (cnt2f c) = c := by
  obtain rfl | hc := eq_or_ne c 0
  · rw [cnt2f_zero, f32_zero, Nat.cast_zero]
  obtain hlt | rfl := hle.lt_or_eq
  · have hk : c.log2 ≤ 23 := Nat.lt_succ_iff.mp ((Nat.log2_lt hc).mpr hlt)
    have hpow : (2 : ℚ) ^ (23 - c.log2) * 2 ^ c.log2 = 2 ^ 23 := by rw [← pow_add, Nat.sub_add_cancel hk]
    rw [f32_cnt2f hc (by omega), countSignificand_of_le hk, Nat.shiftLeft_eq]
    push_cast
    rw [mul_assoc, hpow, mul_div_cancel_right₀ _ (by positivity)]
  · decide +kernel

/-- The error of a stored count is that of its significand, in units of the last place (R131). -/
theorem abs_f32_cnt2f_sub (hc : c ≠ 0) (hk : 23 ≤ c.log2) (hk' : c.log2 ≤ 30) :
    |f32 (cnt2f c) - c| = |(countSignificand c : ℚ) - c / 2 ^ (c.log2 - 23)| * 2 ^ (c.log2 - 23) := by
  have hpow : (2 : ℚ) ^ c.log2 = 2 ^ (c.log2 - 23) * 2 ^ 23 := by rw [← pow_add, Nat.sub_add_cancel hk]
  have hunit : (0 : ℚ) < 2 ^ (c.log2 - 23) := by positivity
  have herror : f32 (cnt2f c) - c =
      ((countSignificand c : ℚ) - c / 2 ^ (c.log2 - 23)) * 2 ^ (c.log2 - 23) := by
    rw [f32_cnt2f hc hk', hpow]
    field_simp
  rw [herror, abs_mul, abs_of_pos hunit]

/-- The parity of a stored pattern is that of its significand. -/
theorem cnt2f_toNat_mod_two (hc : c ≠ 0) (hk : c.log2 ≤ 30) : (cnt2f c).toNat % 2 = countSignificand c % 2 := by
  rw [cnt2f_toNat hc hk]
  omega

end

/-- Settles O26: up to 2^24 a count fits the significand, and above it the significand is the rounding. -/
theorem countConversionIsNearest : Obligations.CountConversionIsNearest := by
  unfold Obligations.CountConversionIsNearest
  intro c hlt
  refine ⟨f32Finite_cnt2f hlt, cnt2f_msb hlt, f32_cnt2f_exact, fun hlow => ?_⟩
  have hc : c ≠ 0 := by omega
  have hk : 23 ≤ c.log2 := (Nat.le_log2 hc).mpr hlow
  have hk' := log2_le_of_lt hlt
  have hunit : (0 : ℚ) < 2 ^ (c.log2 - 23) := by positivity
  obtain ⟨hnear, heven⟩ := countSignificand_isNearestEven hk
  rw [abs_f32_cnt2f_sub hc hk hk', cnt2f_toNat_mod_two hc hk', div_eq_inv_mul (2 ^ (c.log2 - 23) : ℚ), ← one_div]
  exact ⟨mul_le_mul_of_nonneg_right hnear hunit.le, fun htie => heven (mul_right_cancel₀ hunit.ne' htie)⟩

end Sys2Proof.Machine
end

section
/-! What a binomial fill writes and when it is admitted (R131 to R133, R179). -/

namespace Sys2Proof.Machine

/-! ### Counts between 0 and N -/

theorem trials_lt {trials : Bits32} (ht : trialsOk trials = true) : trials.toNat < 2 ^ 31 :=
  lt_of_le_of_lt (trials_le_trialsMax trials ht) (by decide)

/-- Settles O30: each element is the conversion of a count of successes among N trials. -/
theorem binomialFillStaysBelowTrialCount : Obligations.BinomialFillStaysBelowTrialCount := by
  unfold Obligations.BinomialFillStaysBelowTrialCount
  intro f trials prob len s t hx hh pos hp
  obtain ⟨r, hr, -, ht, -⟩ := fillb_completed hx hh
  have hle := successes_le cfg f trials.toNat (thresh prob) r pos
  have hlt := hle.trans_lt (trials_lt ht)
  exact ⟨_, _, readElem_fillb hx hh hr hp, hle, rfl, f32Finite_cnt2f hlt, cnt2f_msb hlt,
    fun hN => f32_cnt2f_exact (hle.trans hN)⟩

/-! ### No trial, no success, no failure (R132) -/

theorem successes_no_trials (c : Cfg) (f : Family) (n : Nat) (r : Regs) (pos : Nat) : successes c f 0 n r pos = 0 := rfl

/-- No m is below 0 (R132). -/
theorem successes_threshold_zero (c : Cfg) (f : Family) (N : Nat) (r : Regs) (pos : Nat) :
    successes c f N 0 r pos = 0 := by
  rw [successes, List.countP_eq_zero]
  intro t _
  rw [trialSucceeds, decide_eq_true_eq]
  exact Nat.not_lt_zero _

/-- Every m is below 2^23 (R132). -/
theorem successes_threshold_full (f : Family) (N : Nat) (r : Regs) (pos : Nat) :
    successes cfg f N (2 ^ 23) r pos = N := by
  rw [successes, List.countP_eq_length.mpr, List.length_range]
  intro t _
  rw [trialSucceeds, decide_eq_true_eq]
  exact mantissa_lt _

/-- The registers a completed binomial fill leaves: N advances for each group (R128). -/
theorem gen_fillb {f g : Family} {trials prob len : Bits32} {r : Regs} {s t : State}
    (hx : exec (fillbOf g trials prob len) s = .next t) (hh : t.halt = false) (hr : s.gen = some ⟨f, r⟩) :
    t.gen = some ⟨f, advances cfg f (trials.toNat * (len.toNat / 4)) r⟩ := by
  obtain ⟨r', hr', -, -, -, -, rfl⟩ := fillb_completed hx hh
  cases hr.symm.trans hr'
  rfl

/-- Settles O31: with no trial, no success or no failure the count is the same at every position. -/
theorem binomialFillDegenerateCases : Obligations.BinomialFillDegenerateCases := by
  unfold Obligations.BinomialFillDegenerateCases
  intro f trials prob len r s t hr hx hh
  obtain ⟨-, -, -, -, hp, -⟩ := fillb_completed hx hh
  have hgen := gen_fillb hx hh hr
  refine ⟨?_, fun hsmall => ⟨hgen, fun pos hpos => ?_⟩, fun hfull pos hpos => ?_⟩
  · rintro rfl
    refine ⟨?_, fun pos hpos => ?_⟩
    · rw [hgen, hr, BitVec.toNat_zero, Nat.zero_mul, advances_zero]
    · rw [readElem_fillb hx hh hr hpos, BitVec.toNat_zero, successes_no_trials, cnt2f_zero]
  · rw [readElem_fillb hx hh hr hpos, thresh_eq_zero hp hsmall, successes_threshold_zero, cnt2f_zero]
  · rw [readElem_fillb hx hh hr hpos, thresh_eq_full hfull, successes_threshold_full]

/-! ### Admission -/

/-- With its other checks passed a binomial fill is decided by `TRIALS_MAX` alone (R131, U6; log entry 6). -/
theorem fillbCommand_of_ok {c : Cfg} {f : Family} {d : Bits128} {trials prob len : Bits32} {r : Regs} {s : State}
    (hr : s.gen = some ⟨f, r⟩) (hl : lenOk len = true) (ht : trialsOk trials = true) (hp : probOk prob = true)
    (hc : len.toNat ≤ s.buf.cap) : fillbCommand c f d trials prob len s =
      if trials.toNat ≤ c.trialsMax then
        .next (complete (deliverBurst (binomialGroups c f trials.toNat (thresh prob) (groupCount len) r).1
          (setGen f (advances c f (trials.toNat * groupCount len) r) s)))
      else .refused .trialsAboveMax := by
  rw [fillbCommand_of_gen c f d trials prob len s r hr, if_pos hl, if_pos ht, if_pos hp, if_pos hc]

/-- Settles O32: the last check of a binomial fill compares N with `TRIALS_MAX`. -/
theorem trialsMaxDecidesAdmission : Obligations.TrialsMaxDecidesAdmission := by
  unfold Obligations.TrialsMaxDecidesAdmission
  intro c f d trials prob len r s hr hl ht hp hc
  rw [← lenOk_eq_lengthWf] at hl
  rw [← trialsOk_eq_trialsWf] at ht
  rw [← probOk_eq_probWf] at hp
  rw [fillbCommand_of_ok hr hl ht hp hc]
  constructor
  · intro hmax
    rw [if_pos hmax]
    exact ⟨_, rfl, rfl, rfl⟩
  · intro hmax
    rw [if_neg hmax.not_ge]

end Sys2Proof.Machine
end

section
/-! Fault entry (R142 to R149): which condition a command meets first, what the fault leaves, and the way out of a halted
block. -/

namespace Sys2Proof.Machine

/-! ### The first cause is the fault raised -/

/-- A command whose descriptor has a first cause raises that fault, and its fault records the descriptor (R147, R149). -/
theorem exec_of_firstCause {i : Instr} {s : State} {c : Cause} (hc : firstCause s (encode i) = some c) :
    exec i s = .next (faultState c (encode i) s) := by
  have hrun : runDescriptor (encode i) s = exec i s := by rw [runDescriptor, decode_encode]
  rw [← hrun]
  exact runDescriptor_of_firstCause hc

/-- Settles O43: the first cause does not depend on what acceptance writes, and it is the fault the descriptor raises. -/
theorem firstCauseIsReported : Obligations.FirstCauseIsReported := by
  unfold Obligations.FirstCauseIsReported
  intro s d b rest c hh hin hcause
  have haccept : firstCause (acceptCommand b rest s) d = some c := hcause
  rw [step_command hh hin]
  exact runDescriptor_of_firstCause haccept

/-! ### Each condition as the first -/

/-- `FAMILY_MISMATCH` comes first of the conditions on a draw (R143, R149). -/
theorem firstCause_of_fam_ne {i : Instr} {s : State} (hi : isInit i = false) (hf : s.fam ≠ famCode (family i)) :
    firstCause s (encode i) = some .familyMismatch := by
  simp [firstCause, causeConditions, decode_encode, hi, hf]

/-- `BAD_LENGTH` comes next after `FAMILY_MISMATCH` (R144, R149). -/
theorem firstCause_of_not_lengthWf {i : Instr} {len : Bits32} {s : State} (hi : fillLen i = some len)
    (hf : s.fam = famCode (family i)) (hl : lengthWf len = false) : firstCause s (encode i) = some .badLength := by
  simp [firstCause, causeConditions, decode_encode, hi, hf, hl]

theorem lengthWf_eq_false_iff (len : Bits32) : lengthWf len = false ↔ len = 0#32 ∨ len.toNat % 4 ≠ 0 := by
  rw [lengthWf, decide_eq_false_iff_not, ← BitVec.toNat_inj, BitVec.toNat_zero]
  omega

theorem trialsWf_eq_false_iff (trials : Bits32) : trialsWf trials = false ↔ trials.toInt < 0 := by
  rw [trialsWf, decide_eq_false_iff_not, not_le]

theorem probWf_eq_false_iff (prob : Bits32) :
    probWf prob = false ↔ f32Finite prob = false ∨ f32 prob < 0 ∨ 1 < f32 prob := by
  rw [probWf, Bool.and_eq_false_iff, decide_eq_false_iff_not, not_and_or, not_le, not_le]

section
variable {f : Family} {trials prob len : Bits32} {s : State}

/-- `BAD_TRIALS` comes next after `BAD_LENGTH` (R145, R149). -/
theorem firstCause_of_not_trialsWf (hf : s.fam = famCode f) (hl : lengthWf len = true) (ht : trialsWf trials = false) :
    firstCause s (encode (fillbOf f trials prob len)) = some .badTrials := by
  simp [firstCause, causeConditions, decode_encode, hf, hl, ht]

/-- `BAD_PROB` comes last (R146, R149). -/
theorem firstCause_of_not_probWf (hf : s.fam = famCode f) (hl : lengthWf len = true) (ht : trialsWf trials = true)
    (hp : probWf prob = false) : firstCause s (encode (fillbOf f trials prob len)) = some .badProb := by
  simp [firstCause, causeConditions, decode_encode, hf, hl, ht, hp]

end

/-- Settles O39: the family is the first condition on a draw, and `INIT` has its own effect in every state. -/
theorem drawsFaultOnFamilyMismatch : Obligations.DrawsFaultOnFamilyMismatch := by
  unfold Obligations.DrawsFaultOnFamilyMismatch
  intro i s
  refine ⟨fun hi hf => exec_of_firstCause (firstCause_of_fam_ne hi hf), fun hi => ?_⟩
  obtain ⟨t, hx, he⟩ := exec_of_isInit s hi
  exact ⟨t, hx, he.halt, he.cause⟩

/-- Settles O40: with the family right the length is the first condition. -/
theorem fillsFaultOnBadLength : Obligations.FillsFaultOnBadLength := by
  unfold Obligations.FillsFaultOnBadLength
  intro i len s hi hf hlen
  exact exec_of_firstCause (firstCause_of_not_lengthWf hi hf ((lengthWf_eq_false_iff len).mpr hlen))

/-- Settles O41: with family and length right the trial count is the first condition. -/
theorem binomialFillFaultsOnNegativeTrials : Obligations.BinomialFillFaultsOnNegativeTrials := by
  unfold Obligations.BinomialFillFaultsOnNegativeTrials
  intro f trials prob len s hf hl htrials
  exact exec_of_firstCause (firstCause_of_not_trialsWf hf hl ((trialsWf_eq_false_iff trials).mpr htrials))

/-- Settles O42: with everything else right the probability is the one condition left. -/
theorem binomialFillFaultsOnBadProbability : Obligations.BinomialFillFaultsOnBadProbability := by
  unfold Obligations.BinomialFillFaultsOnBadProbability
  intro f trials prob len s hf hl htrials hprob
  have ht : trialsWf trials = true := decide_eq_true htrials
  exact exec_of_firstCause (firstCause_of_not_probWf hf hl ht ((probWf_eq_false_iff prob).mpr hprob))

/-! ### Into a halted block and out of it -/

/-- Only a fault halts a running block: a step that waits or completes keeps HALT, and a reset clears it (R147). -/
theorem raiseFault_of_step_halts {s t : State} (hh : s.halt = false) (hstep : step s = .next t) (ht : t.halt = true) :
    ∃ d b rest k, s.inputs = .command d b :: rest ∧ k ≠ .noFault ∧ t = raiseFault k d (acceptCommand b rest s) := by
  cases stepEffect_of_next hstep with
  | waits => exact absurd (hh.symm.trans ht) Bool.false_ne_true
  | resets => exact absurd ht Bool.false_ne_true
  | completes d b rest i t hin _ _ he =>
    exact absurd ((he.halt.trans hh).symm.trans ht) Bool.false_ne_true
  | faults d b rest k hin _ hk => exact ⟨d, b, rest, k, hin, hk, rfl⟩

/-- Settles O45: a step that halts the block is a fault, and a fault writes three registers of the accepted state. -/
theorem faultEntryWritesThreeRegisters : Obligations.FaultEntryWritesThreeRegisters := by
  unfold Obligations.FaultEntryWritesThreeRegisters
  intro s t hh hstep ht
  obtain ⟨d, b, rest, k, hin, hk, rfl⟩ := raiseFault_of_step_halts hh hstep ht
  exact ⟨d, b, rest, hin, rfl, hk, status_cause _, status_halt _, status_fam _, rfl, rfl, rfl, rfl, rfl, rfl, rfl⟩

theorem step_idle_of_halt {s : State} (hh : s.halt = true) (hin : s.inputs = []) : step s = .fault .halted := by
  simp [step, idleStep, hin, cmdReady_eq_not_halt, hh]

theorem step_command_of_halt {s : State} {d : Bits128} {b : Buffer} {rest : List HostInput} (hh : s.halt = true)
    (hin : s.inputs = .command d b :: rest) : step s = .fault .halted := by
  simp [step, hin, cmdReady_eq_not_halt, hh]

/-- A halted block that has a step is reset, and a command the reset cuts was not accepted, so it wrote nothing (R148). -/
theorem resetBlock_of_step_of_halt {s t : State} (hh : s.halt = true) (hstep : step s = .next t) :
    ∃ rest, (s.inputs = .reset :: rest ∨ ∃ d b k l, s.inputs = .commandCut d b k l :: rest) ∧ t = resetBlock rest s := by
  have running (h : s.halt = false) : False := Bool.false_ne_true (h.symm.trans hh)
  obtain ⟨-, hrun, -⟩ | ⟨rest, hin, ht⟩ | ⟨d, b, k, l, rest, hin, ⟨-, ht⟩ | ⟨hrun, -⟩⟩ | ⟨-, -, -, -, hrun, -⟩ :=
    step_cases hstep
  · exact (running hrun).elim
  · exact ⟨rest, .inl hin, ht⟩
  · exact ⟨rest, .inr ⟨d, b, k, l, hin⟩, ht⟩
  · exact (running hrun).elim
  · exact (running hrun).elim

/-- Settles O46: `cmd_ready` is 0, so nothing but `rst` has a step, and `rst` leaves the reset state. -/
theorem haltedBlockLeavesOnlyByReset : Obligations.HaltedBlockLeavesOnlyByReset := by
  unfold Obligations.HaltedBlockLeavesOnlyByReset
  intro s hh
  constructor
  · rintro (hin | ⟨d, b, rest, hin⟩)
    · exact step_idle_of_halt hh hin
    · exact step_command_of_halt hh hin
  · intro t hstep
    obtain ⟨rest, hin, rfl⟩ := resetBlock_of_step_of_halt hh hstep
    refine ⟨?_, rfl, rfl, resetBlock_status rest s, rfl, rfl⟩
    obtain hreset | ⟨d, b, k, l, hcut⟩ := hin
    · exact .inl ⟨rest, hreset⟩
    · exact .inr ⟨d, b, k, l, rest, hcut⟩

end Sys2Proof.Machine
end

section
/-! The canonical form of the memory over every step: the block stores bytes in order or leaves memory alone (log entry 7). -/

namespace Sys2Proof.Machine

/-- An accepted descriptor keeps the canonical form: what it does to memory is store its beats (R44). -/
theorem runDescriptor_memoryCanonical {d : Bits128} {b : Buffer} {rest : List HostInput} {s t : State}
    (hs : s.MemoryCanonical) (hrun : runDescriptor d (acceptCommand b rest s) = .next t) : t.MemoryCanonical := by
  obtain ⟨-, hmem⟩ := runDescriptor_mem hrun rfl
  unfold State.MemoryCanonical
  rw [hmem]
  exact Memory.wf_storeBurst b 0 t.beats hs

/-- Settles O57, by cases on what a step can do: only an accepted descriptor writes, and a cut one writes part of it. -/
theorem everyStepKeepsMemoryCanonical : Obligations.EveryStepKeepsMemoryCanonical := by
  unfold Obligations.EveryStepKeepsMemoryCanonical
  intro s t hs hstep
  obtain ⟨-, -, rfl⟩ | ⟨rest, -, rfl⟩ | ⟨d, b, k, l, rest, -, hcut⟩ | ⟨d, b, rest, -, -, hrun⟩ := step_cases hstep
  · exact hs
  · exact hs
  · obtain ⟨-, rfl⟩ | ⟨-, u, -, rfl⟩ := hcut
    · exact hs
    · exact Memory.wf_storeCut b u.beats k l hs
  · exact runDescriptor_memoryCanonical hs hrun

end Sys2Proof.Machine
end

section
/-! The sample descriptors of the test vectors, decoded by the rule of their operation code (R63, R64). -/

namespace Sys2Proof.Machine

/-- Settles O5: a legal word is the encoding of its command, and an illegal one breaks the rule its error names. -/
theorem sampleDescriptorsDecode : Obligations.SampleDescriptorsDecode := by
  unfold Obligations.SampleDescriptorsDecode
  simp only [decode_eq_ok_iff]
  refine ⟨by decide, by decide, by decide, by decide, by decide, by decide, by decide, by decide, ?_, ?_, ?_, ?_⟩
  · exact decode_of_no_op (by decide) (.inl (by decide))
  · exact decode_of_rsv_ne (by decide)
  · exact (decode_of_op_adv (by decide) (by decide)).trans (if_pos (by decide))
  · exact (decode_of_op_fillu (by decide) (by decide)).trans (if_pos (by decide))

end Sys2Proof.Machine
end
